-- ==== Sys2Proof/Word.lean ====
section
/-! DEFINITION. The widths of the engine: nibbles, instruction words, programs. -/

namespace Sys2Proof

/-- A register, a memory cell, an opcode or a data field: 4 bits, unsigned (R4, R5, R10, R20). -/
abbrev Nibble := BitVec 4

/-- An instruction word: exactly 8 bits (R50, decision D5). -/
abbrev Byte := BitVec 8

/-- The instruction sequence `P` that the host supplies with a command; any length, 0 included (R21, decision D4). -/
abbrev Program := List Byte

end Sys2Proof
end

