-- ==== Sys2Proof/Config.lean ====
section
/-! DEFINITION. The parameters of R4 that are numbers, and the one value the spec leaves open.
Register and field widths are the types of Word.lean. LEN, LEN_MAX and PCW stay open: a program is any
list and `pc` is a natural number, so no definition fixes them (decisions D3, D4). -/

namespace Sys2Proof.Config

/-- MEMSIZE: the number of cells of the memory array (R4, R20). -/
abbrev memSize : Nat := 16

/-- Which of several applicable assembler errors is reported, as a function of the text: left open by R69
(91_not_in_source.md N12, 93_implementation_defined.md U14). A FREE VALUE (DESIGN CHOICE, log entry 11). The engine never uses it. -/
opaque assemblerErrorChoice : List Char → Nat

end Sys2Proof.Config
end

