-- ==== Sys2Proof/Syntax.lean ====
section
/-! DEFINITION. The eight instructions of the closed opcode map (R53). -/

namespace Sys2Proof

/-- One constructor per row of the opcode table. A cell address is a natural number, as in the memory
primitives of R31 and R32, so that their guard can be stated (decision D7; DESIGN CHOICE, log entry 8); `Instr.wellFormed` bounds it
to what a data field can hold. The data field of STOP, ADD, AND, OR and NOT is ignored (R54) and is not kept
(DEDUCED, log entry 9). -/
inductive Instr where
  /-- STOP (R100). -/
  | stop
  /-- LOAD data (R110): `data` is the immediate. -/
  | load (data : Nibble)
  /-- STORE data (R111): `addr` is the cell address. -/
  | store (addr : Nat)
  /-- FETCH data (R112): `addr` is the cell address. -/
  | fetch (addr : Nat)
  /-- ADD (R120). -/
  | add
  /-- AND (R121). -/
  | and
  /-- OR (R122). -/
  | or
  /-- NOT (R123). -/
  | not
  deriving DecidableEq, Repr

end Sys2Proof
end

