-- ==== Sys2Proof/WellFormed.lean ====
section
/-! DEFINITION. Which instruction terms a word can encode. -/

namespace Sys2Proof

/-- A cell address fits the 4-bit data field (R31: "`addr` is always the 4-bit data field"). -/
def Instr.wellFormed : Instr → Bool
  | .stop => true
  | .load _ => true
  | .store addr => decide (addr < Config.memSize)
  | .fetch addr => decide (addr < Config.memSize)
  | .add => true
  | .and => true
  | .or => true
  | .not => true

end Sys2Proof
end

