-- ==== Sys2Proof/Decode.lean ====
section
/-! DEFINITION. The decoder of R51 to R55, and the packing of R58. -/

namespace Sys2Proof

/-- `opcode = w[7:4]` (R51). -/
def opcodeField (w : Byte) : Nibble := w.extractLsb' 4 4

/-- `data = w[3:0]` (R51). -/
def dataField (w : Byte) : Nibble := w.extractLsb' 0 4

/-- Why a word is no instruction (R55). The payload is the opcode value alone. -/
inductive DecodeError where
  /-- The opcode is 0 or 9 to 15. -/
  | unknownOpcode (op : Nibble)
  deriving DecidableEq, Repr

/-- The opcode map of R53, on every one of the 256 words. LOAD takes the data field as a value, STORE and
FETCH take it as a cell address (R52), the other five ignore it (R54); the remaining opcode values are
illegal, 0 no less than 9 to 15 (R55, conflict C7). -/
def decode (w : Byte) : Except DecodeError Instr :=
  match (opcodeField w).toNat with
  | 1 => .ok .stop
  | 2 => .ok (.load (dataField w))
  | 3 => .ok (.store (dataField w).toNat)
  | 4 => .ok (.fetch (dataField w).toNat)
  | 5 => .ok .add
  | 6 => .ok .and
  | 7 => .ok .or
  | 8 => .ok .not
  | _ => .error (.unknownOpcode (opcodeField w))

/-- The opcode value of an instruction (R53). -/
def opcodeOf : Instr → Nibble
  | .stop => 1
  | .load _ => 2
  | .store _ => 3
  | .fetch _ => 4
  | .add => 5
  | .and => 6
  | .or => 7
  | .not => 8

/-- The data field of an instruction's canonical word: 0 where it is ignored (R54), and an address masked
to its four bits (R58). -/
def operandOf : Instr → Nibble
  | .stop => 0
  | .load data => data
  | .store addr => BitVec.ofNat 4 addr
  | .fetch addr => BitVec.ofNat 4 addr
  | .add => 0
  | .and => 0
  | .or => 0
  | .not => 0

/-- `(opcode << 4) | data` on two 4-bit values (R58). -/
def pack (opcode data : Nibble) : Byte := opcode ++ data

/-- The canonical word of an instruction (R54, R58). -/
def encode (i : Instr) : Byte := pack (opcodeOf i) (operandOf i)

/-- The decoder on a word numbered as the opcode table numbers it. Every instruction is one word (R57), and
a number outside 0..255 is no word at all (R50, 93_implementation_defined.md U8; DESIGN CHOICE, log entry 15), whatever `_nbits` is. -/
def decodeTableWord (_nbits w : Nat) : Option Instr :=
  if w < 256 then
    match decode (BitVec.ofNat 8 w) with
    | .ok i => some i
    | .error _ => none
  else none

end Sys2Proof
end

