-- ==== Sys2Proof/Machine/State.lean ====
section
/-! DEFINITION. The state of the engine and of its host interface, as plain data. -/

namespace Sys2Proof.Machine

/-- The memory array (R20): address and value, addresses rising, no cell that holds 0 listed (DESIGN CHOICE, log entry 7). -/
abbrev Memory := List Host.Cell

/-- The errors that can end a command from inside an instruction cycle (R9, R140, R144). -/
inductive Fault where
  /-- `UnknownOpcode(op)` (R141). Raised by the dispatch of an illegal word and REPORTED in `State.results`,
  with the machine going on; `step` never stops with it (DESIGN CHOICE, log entry 3). Safe: the state after it is the
  spec's own. -/
  | unknownOpcode (op : Nibble)
  deriving DecidableEq, Repr

/-- Why a step has no meaning. -/
inductive Refusal where
  /-- An instruction without a meaning, by name. Raised by no arm of `exec`: all eight have theirs. Safe. -/
  | notModelled (mnemonic : String)
  deriving DecidableEq, Repr

/-- A command of the host (R95 (a)); `execute` and `step` bring their program (R90). -/
inductive Command where
  /-- `execute(P)` (R83). -/
  | execute (p : Program)
  /-- `step(P)` (R84). -/
  | step (p : Program)
  /-- `state` (R85). -/
  | state
  /-- `clear_state` (R86). -/
  | clearState
  deriving DecidableEq, Repr

/-- What the `state` command returns (R23): pc, the four registers, the sixteen cells in address order.
`running` is not in it (R22, decision D14). -/
structure Snapshot where
  pc : Nat
  a : Nibble
  b : Nibble
  c : Nibble
  d : Nibble
  memory : List Nibble
  deriving DecidableEq, Repr

/-- The result of a command (R95 (c)). -/
inductive Result where
  /-- "completed". -/
  | completed
  /-- The error an instruction cycle raised (R141). -/
  | fault (f : Fault)
  /-- The refusal of a `step` at or past the end of its program (R142). -/
  | noMoreInstructions
  /-- The snapshot (R23). -/
  | snapshot (view : Snapshot)
  deriving DecidableEq, Repr

/-- The engine's state is `a`, `b`, `c`, `d`, `mem`, `pc`, `running` (10_state.md R10 to R20, R26). The last
three fields are the host's side of the interface of R95, not engine state: the command input and the
result output (DESIGN CHOICE, log entry 1). -/
structure State where
  /-- Register `a`, the top of the shift chain (R10). -/
  a : Nibble
  /-- Register `b` (R10). -/
  b : Nibble
  /-- Register `c` (R10). -/
  c : Nibble
  /-- Register `d`, the bottom of the shift chain (R10). -/
  d : Nibble
  /-- The memory array (R20). -/
  mem : Memory
  /-- Index of the next instruction to fetch (R14 to R16). -/
  pc : Nat
  /-- The running flag (R17). -/
  running : Bool
  /-- The program of the `execute` in progress, if one is (R83, R89). -/
  active : Option Program
  /-- The commands the host gives, in the order it gives them (R80, R96). -/
  commands : List Command
  /-- The results handed to the host, oldest first (R95 (c)). -/
  results : List Result
  deriving DecidableEq, Repr

/-- The machine right after reset (R24, R170): all registers, cells and `pc` zero, `running` true; the host
has given no command yet (R173). -/
def State.reset : State where
  a := 0
  b := 0
  c := 0
  d := 0
  mem := []
  pc := 0
  running := true
  active := none
  commands := []
  results := []

end Sys2Proof.Machine
end

