-- ==== Sys2Proof/Machine/Ops.lean ====
section
/-! DEFINITION. The named operations over memory, registers, `pc` and the command results. -/

namespace Sys2Proof.Machine

/-! ### The memory list -/

/-- The value an address holds; an unlisted address holds 0, the reset contents (R24). -/
def Memory.cell : Memory → Nat → Byte
  | [], _ => 0
  | (k, v) :: m, addr => if k = addr then v else Memory.cell m addr

/-- The list without the entries of one address. -/
def Memory.erase : Memory → Nat → Memory
  | [], _ => []
  | (k, v) :: m, addr => if k = addr then Memory.erase m addr else (k, v) :: Memory.erase m addr

/-- The list with an entry put at its place in the rising order. -/
def Memory.insert : Memory → Nat → Byte → Memory
  | [], addr, v => [(addr, v)]
  | (k, w) :: m, addr, v =>
    if addr < k then (addr, v) :: (k, w) :: m else (k, w) :: Memory.insert m addr v

/-- Write one cell; the value an unlisted address holds is written by removing the entry. -/
def Memory.put (m : Memory) (addr : Nat) (v : Byte) : Memory :=
  if v = 0 then Memory.erase m addr else Memory.insert (Memory.erase m addr) addr v

/-- The canonical form: addresses strictly rising, only the sixteen cells of R20, each listed value a nonzero
4-bit value (R13). -/
abbrev Memory.wf (m : Memory) : Prop :=
  m.Pairwise (fun x y => x.1 < y.1) ∧
    ∀ e ∈ m, e.1 < Config.memSize ∧ e.2 ≠ 0 ∧ e.2.toNat < 16

/-! ### The data-memory primitives -/

/-- `MemRead(addr, 1)` (R31): the cell below 16, no value from 16 on. -/
def memRead (s : State) (addr : Nat) : Option Nibble :=
  if addr < Config.memSize then some ((Memory.cell s.mem addr).setWidth 4) else none

/-- `MemWrite(addr, 1, v)` (R32): the cell below 16, nothing from 16 on. -/
def memWrite (s : State) (addr : Nat) (v : Nibble) : State :=
  if addr < Config.memSize then { s with mem := Memory.put s.mem addr (v.setWidth 8) } else s

/-! ### Registers and pc -/

/-- Write `a` alone. -/
def State.setA (s : State) (v : Nibble) : State := { s with a := v }

/-- `push(v)` (R11): every right-hand value is the old one. -/
def State.push (s : State) (v : Nibble) : State := { s with a := v, b := s.a, c := s.b, d := s.c }

/-- `pop()` (R12): `a` is not touched. -/
def State.pop (s : State) : State := { s with b := s.c, c := s.d, d := 0 }

/-- `pc <- pc + 1`, before decode and dispatch (R14, R15 (a), R81). -/
def State.advancePc (s : State) : State := { s with pc := s.pc + 1 }

/-! ### Results of commands -/

/-- The command in progress ends and its result goes to the host (R95 (c)). -/
def State.report (s : State) (r : Result) : State :=
  { s with active := none, results := s.results ++ [r] }

/-- Taking an exception (R147): nothing is saved, masked or switched and no handler is entered; the running
command ends and its result is the error. `pc` has already advanced (R141). There is no return operation:
nothing was saved, and any next command simply finds this state (R148). -/
def State.raise (s : State) (f : Fault) : State := s.report (.fault f)

/-- The engine part of a reset (R24, R171); the host's side of the interface is not the engine's to clear. -/
def State.clearEngine (s : State) : State :=
  { State.reset with active := s.active, commands := s.commands, results := s.results }

/-- The snapshot of R23. -/
def State.view (s : State) : Snapshot where
  pc := s.pc
  a := s.a
  b := s.b
  c := s.c
  d := s.d
  memory := (List.range Config.memSize).map fun k => (Memory.cell s.mem k).setWidth 4

/-- Present one word as the next instruction: a `step` command whose program holds `w` at index `pc`, given
ahead of every other command, with no `execute` in progress (DESIGN CHOICE, log entry 2). The words below `pc` are padding
that the engine does not fetch. -/
def State.presentWord (s : State) (w : Byte) : State :=
  { s with active := none, commands := .step (List.replicate s.pc 0 ++ [w]) :: s.commands }

end Sys2Proof.Machine
end

