-- ==== Sys2Proof/Machine/Operands.lean ====
section
/-! DEFINITION. The operand forms: immediate and absolute direct (R113), and the implicit pair (R10). -/

namespace Sys2Proof.Machine

/-- The immediate form (LOAD): the operand is the data field as it stands (R52, R113). -/
def immediate (data : Nibble) : Nibble := data

/-- The absolute direct form (STORE, FETCH): `EA = data` (R52, R113). -/
def effectiveAddress (data : Nat) : Nat := data

/-- The shape of the two-operand instructions: `a op b` goes to `a`, then the chain retracts (R12, R120 to R122). -/
def State.combine (s : State) (op : Nibble → Nibble → Nibble) : State := (s.setA (op s.a s.b)).pop

/-- A push of a cell's value, or nothing at all where there is no value (R31, R112). -/
def State.pushCell (s : State) (addr : Nat) : State :=
  match memRead s addr with
  | some v => s.push v
  | none => s

end Sys2Proof.Machine
end

