-- ==== Sys2Proof/Machine/Flags.lean ====
section
/-! DEFINITION. The running flag, the only flag there is (R17, R18). -/

namespace Sys2Proof.Machine

/-- `running <- false`: STOP (R100). -/
def State.clearRunning (s : State) : State := { s with running := false }

/-- `pc <- 0; running <- true`: the partial reset at the start of `execute` (R83, R172). -/
def State.beginRun (s : State) : State := { s with pc := 0, running := true }

end Sys2Proof.Machine
end

