-- ==== Sys2Proof/Machine/Alu.lean ====
section
/-! DEFINITION. ADD, AND, OR and NOT (43_alu.md). -/

namespace Sys2Proof.Machine

/-- The sum of the two unsigned values, narrowed to 4 bits; the carry is recorded nowhere (R120, R124). -/
def addNibbles (x y : Nibble) : Nibble := BitVec.ofNat 4 ((x.toNat + y.toNat) % 16)

/-- ADD (R120). -/
def execAdd (s : State) : Host.Outcome State Fault Refusal := .next (s.combine addNibbles)

/-- AND (R121). -/
def execAnd (s : State) : Host.Outcome State Fault Refusal := .next (s.combine fun x y => x &&& y)

/-- OR (R122). -/
def execOr (s : State) : Host.Outcome State Fault Refusal := .next (s.combine fun x y => x ||| y)

/-- NOT: complement of `a` in 4 bits; the chain does not move (R123). -/
def execNot (s : State) : Host.Outcome State Fault Refusal := .next (s.setA (~~~s.a))

end Sys2Proof.Machine
end

