-- ==== Sys2Proof/Machine/LoadStore.lean ====
section
/-! DEFINITION. LOAD, STORE and FETCH (42_load_store_fetch.md). -/

namespace Sys2Proof.Machine

/-- LOAD: push of the immediate; no memory access (R110). -/
def execLoad (data : Nibble) (s : State) : Host.Outcome State Fault Refusal :=
  .next (s.push (immediate data))

/-- STORE: `MemWrite(data, 1, a)`; no register changes (R111). -/
def execStore (addr : Nat) (s : State) : Host.Outcome State Fault Refusal :=
  .next (memWrite s (effectiveAddress addr) s.a)

/-- FETCH: push of the cell; "If out of bounds, no shift and no load occur" (R112). -/
def execFetch (addr : Nat) (s : State) : Host.Outcome State Fault Refusal :=
  .next (s.pushCell (effectiveAddress addr))

end Sys2Proof.Machine
end

