-- ==== Sys2Proof/Machine/System.lean ====
section
/-! DEFINITION. STOP (41_stop.md). Like every meaning, it starts from the state whose `pc` the cycle has
already advanced (R81). -/

namespace Sys2Proof.Machine

/-- STOP: "running := false. No other state change." (R100) -/
def execStop (s : State) : Host.Outcome State Fault Refusal := .next s.clearRunning

end Sys2Proof.Machine
end

