-- ==== Sys2Proof/Machine/Cycle.lean ====
section
/-! DEFINITION. The instruction cycle (R81, R82). -/

namespace Sys2Proof.Machine

/-- `Fetch(P, i)` (R33); no word at or past the end of `P`. -/
def fetchWord (p : Program) (index : Nat) : Option Byte := p[index]?

/-- `Dispatch` (R82) on a fetched word, in the state whose `pc` has advanced. The second component is the
error raised, if any; an illegal word changes nothing (R141). -/
def dispatchWord (w : Byte) (s : State) : Host.Outcome (State × Option Fault) Fault Refusal :=
  match decode w with
  | .error (.unknownOpcode op) => .next (s, some (.unknownOpcode op))
  | .ok i =>
    match exec i s with
    | .next t => .next (t, none)
    | .fault f => .fault f
    | .refused r => .refused r

/-- One instruction cycle on the word fetched from index `pc` (R81): `pc` advances, then the word is decoded and
dispatched. Its two outcomes are those of R7: a next state, or an error with the state it leaves. -/
def cycle (w : Byte) (s : State) : Host.Outcome (State × Option Fault) Fault Refusal :=
  dispatchWord w s.advancePc

end Sys2Proof.Machine
end

