-- ==== Sys2Proof/Machine/Commands.lean ====
section
/-! DEFINITION. The four host commands, first as functions from a state to a state and a result (R95), then as
the machine's own transitions, where an `execute` takes one transition per instruction cycle (decision D8;
DESIGN CHOICE, log entry 4). -/

namespace Sys2Proof.Machine

/-! ### Each command whole -/

/-- `step(P)` (R84): the test `pc >= len(P)` comes first (R146); `running` is not read (R91). -/
def stepCommand (p : Program) (s : State) : Host.Outcome (State × Result) Fault Refusal :=
  match fetchWord p s.pc with
  | none => .next (s, .noMoreInstructions)
  | some w =>
    match cycle w s with
    | .next (t, none) => .next (t, .completed)
    | .next (t, some f) => .next (t, .fault f)
    | .fault f => .fault f
    | .refused r => .refused r

/-- The loop of `execute(P)` (R83) with at most `fuel` cycles: the test `running and pc < len(P)` comes before
every cycle, and an error ends the loop at once. -/
def executeLoop : Nat → Program → State → Host.Outcome (State × Result) Fault Refusal
  | 0, _, s => .next (s, .completed)
  | fuel + 1, p, s =>
    match s.running, fetchWord p s.pc with
    | true, some w =>
      match cycle w s with
      | .next (t, none) => executeLoop fuel p t
      | .next (t, some f) => .next (t, .fault f)
      | .fault f => .fault f
      | .refused r => .refused r
    | true, none => .next (s, .completed)
    | false, _ => .next (s, .completed)

/-- `execute(P)` (R83): `pc` and `running` reset, then the loop. `len(P)` cycles are always enough (R88). -/
def executeCommand (p : Program) (s : State) : Host.Outcome (State × Result) Fault Refusal :=
  executeLoop p.length p s.beginRun

/-- `state` (R85): the snapshot, nothing changed. -/
def stateCommand (s : State) : Host.Outcome (State × Result) Fault Refusal := .next (s, .snapshot s.view)

/-- `clear_state` (R86, R171): the engine reset. -/
def clearCommand (s : State) : Host.Outcome (State × Result) Fault Refusal := .next (s.clearEngine, .completed)

/-- The result of any command, as the host sees it (R95). -/
def runCommand : Command → State → Host.Outcome (State × Result) Fault Refusal
  | .execute p, s => executeCommand p s
  | .step p, s => stepCommand p s
  | .state, s => stateCommand s
  | .clearState, s => clearCommand s

/-! ### The machine's transitions -/

/-- A command that ends in one transition hands its result to the host. -/
def finish : Host.Outcome (State × Result) Fault Refusal → Host.Outcome State Fault Refusal
  | .next (t, r) => .next (t.report r)
  | .fault f => .fault f
  | .refused r => .refused r

/-- One turn of the loop of an `execute(P)` in progress (R83): the loop test, then a cycle or the end. -/
def executeTurn (p : Program) (s : State) : Host.Outcome State Fault Refusal :=
  match s.running, fetchWord p s.pc with
  | true, some w =>
    match cycle w s with
    | .next (t, none) => .next t
    | .next (t, some f) => .next (t.raise f)
    | .fault f => .fault f
    | .refused r => .refused r
  | true, none => .next (s.report .completed)
  | false, _ => .next (s.report .completed)

/-- Take the next command, if the host has given one; otherwise the engine executes nothing (R173; that it
stutters is a DESIGN CHOICE, log entry 5). -/
def acceptCommand (s : State) : Host.Outcome State Fault Refusal :=
  match s.commands with
  | [] => .next s
  | .execute p :: rest => .next { s.beginRun with active := some p, commands := rest }
  | .step p :: rest => finish (stepCommand p { s with commands := rest })
  | .state :: rest => finish (stateCommand { s with commands := rest })
  | .clearState :: rest => finish (clearCommand { s with commands := rest })

/-- One transition: commands do not overlap, so one is taken only when no `execute` is in progress (R89). -/
def transition (s : State) : Host.Outcome State Fault Refusal :=
  match s.active with
  | some p => executeTurn p s
  | none => acceptCommand s

end Sys2Proof.Machine
end

