-- ==== Sys2Proof/Machine/Step.lean ====
section
/-! DEFINITION. The step of the whole machine, engine and host commands. -/

namespace Sys2Proof.Machine

/-- One atomic transition (R89, decision D8). -/
def step (s : State) : Host.Outcome State Fault Refusal := transition s

/-- The state with one word presented as the next instruction (DESIGN CHOICE, log entry 2). Instructions are one word (R57), so
`_nbits` adds nothing. A number of 256 or more is no word, and the spec leaves open what would become of one (N11, U8): only
so that this function is total, its low eight bits are presented (0x110 as 0x10, STOP), which is no claim about the engine
(DESIGN CHOICE, log entry 15). -/
def State.withFetchWord (s : State) (_nbits w : Nat) : State := s.presentWord (BitVec.ofNat 8 w)

end Sys2Proof.Machine
end

