-- ==== Sys2Proof/Machine/Assembler.lean ====
section
/-! DEFINITION. The assembler (R60 to R69) and the disassembly convention (R70): software outside the engine,
over the same `pack` and words. -/

namespace Sys2Proof.Machine

/-- The errors of the assembler; the engine never raises them (R68, R69, R140). The payload is the offending token
as it stands in the text (DEDUCED, log entry 13). -/
inductive AssemblerError where
  /-- `UnknownInstruction(token)` (R68). -/
  | unknownInstruction (token : List Char)
  /-- `MalformedOperand(token)` (R69). -/
  | malformedOperand (token : List Char)
  deriving DecidableEq, Repr

/-- White space inside a line (DESIGN CHOICE, log entry 12). -/
def isBlank (ch : Char) : Bool :=
  ch == ' ' || ch == '\t' || ch == '\r' || ch == '\x0b' || ch == '\x0c'

/-- The lines of a text, cut at every line feed (R61; DESIGN CHOICE, log entry 12). -/
def linesOf : List Char → List (List Char)
  | [] => [[]]
  | ch :: rest =>
    if ch == '\n' then [] :: linesOf rest
    else
      match linesOf rest with
      | [] => [[ch]]
      | line :: more => (ch :: line) :: more

/-- A line without its comment: everything from the first `#` on is removed (R62 item 2). -/
def stripComment : List Char → List Char
  | [] => []
  | ch :: rest => if ch == '#' then [] else ch :: stripComment rest

/-- The tokens of a line, `current` being the token begun so far. Splitting on white space into nonempty tokens
makes the stripping of R62 items 1 and 2 implicit, and a line left empty has no token (R62 items 3 and 4). -/
def tokensFrom (current : List Char) : List Char → List (List Char)
  | [] => if current = [] then [] else [current]
  | ch :: rest =>
    if isBlank ch then
      if current = [] then tokensFrom [] rest else current :: tokensFrom [] rest
    else tokensFrom (current ++ [ch]) rest

/-- The tokens of a line (R62 item 4). -/
def tokensOf (line : List Char) : List (List Char) := tokensFrom [] line

/-- The mnemonic table of R63: exactly eight mnemonics. -/
def mnemonicTable : List (List Char × Nibble) :=
  [("STOP".toList, 1), ("LOAD".toList, 2), ("STORE".toList, 3), ("FETCH".toList, 4),
   ("ADD".toList, 5), ("AND".toList, 6), ("OR".toList, 7), ("NOT".toList, 8)]

/-- The opcode of a mnemonic, looked up in upper case, that of the ASCII letters (R62 item 4, R63; PRESUMED,
log entry 13). -/
def mnemonicOpcode (token : List Char) : Option Nibble := mnemonicTable.lookup (token.map Char.toUpper)

/-- The value of a decimal digit. -/
def digitValue (ch : Char) : Option Nat :=
  if '0' ≤ ch ∧ ch ≤ '9' then some (ch.toNat - '0'.toNat) else none

/-- Decimal digits read onto the value so far. -/
def readDigits (soFar : Nat) : List Char → Option Nat
  | [] => some soFar
  | ch :: rest =>
    match digitValue ch with
    | some v => readDigits (10 * soFar + v) rest
    | none => none

/-- One or more decimal digits (R64). -/
def readNatural : List Char → Option Nat
  | [] => none
  | ch :: rest => readDigits 0 (ch :: rest)

/-- The operand literal: an optional `+` or `-`, then one or more decimal digits (R64, decision D15). -/
def readOperand : List Char → Option Int
  | '+' :: rest => (readNatural rest).map fun n => (n : Int)
  | '-' :: rest => (readNatural rest).map fun n => -(n : Int)
  | token => (readNatural token).map fun n => (n : Int)

/-- `operand & 0xF`, the non-negative remainder modulo 16 (R65, decision D15). -/
def truncateOperand (operand : Int) : Nibble := BitVec.ofInt 4 operand

/-- The operand of a line: its second token, 0 if absent; further tokens are ignored (R64, R66). -/
def lineOperand : List (List Char) → Option Int
  | [] => some 0
  | token :: _ => readOperand token

/-- One line (R62): no instruction if it has no token, else its word, or the list of errors that apply to it. -/
def assembleLine (line : List Char) : Option (Except (List AssemblerError) Byte) :=
  match tokensOf (stripComment line) with
  | [] => none
  | mnemonic :: operands =>
    match mnemonicOpcode mnemonic, lineOperand operands with
    | some opcode, some operand => some (.ok (pack opcode (truncateOperand operand)))
    | none, some _ => some (.error [.unknownInstruction mnemonic])
    | some _, none => some (.error (operands.head?.toList.map .malformedOperand))
    | none, none =>
      some (.error (.unknownInstruction mnemonic :: operands.head?.toList.map .malformedOperand))

/-- The errors that apply to a text, in source order. -/
def assemblerErrors (text : List Char) : List AssemblerError :=
  ((linesOf text).filterMap assembleLine).flatMap fun line =>
    match line with
    | .ok _ => []
    | .error errors => errors

/-- The words of the lines that have one, in source order (R62 item 7). -/
def assembledWords (text : List Char) : Program :=
  ((linesOf text).filterMap assembleLine).flatMap fun line =>
    match line with
    | .ok w => [w]
    | .error _ => []

/-- `assemble(source)` (R60): all the words, or one error and no output (R68, R69). Where several errors apply, which
one is reported is a FREE VALUE (93_implementation_defined.md U14; DESIGN CHOICE, log entry 11). -/
def assemble (source : String) : Except AssemblerError Program :=
  match assemblerErrors source.toList with
  | [] => .ok (assembledWords source.toList)
  | e :: more =>
    .error ((e :: more).getD (Config.assemblerErrorChoice source.toList % (e :: more).length) e)

/-- A 4-bit value in decimal. -/
def decimalOf (v : Nibble) : List Char :=
  if v.toNat < 10 then [Char.ofNat (48 + v.toNat)] else ['1', Char.ofNat (38 + v.toNat)]

/-- The spec's way of writing a word (R70): mnemonic and decimal data for LOAD, STORE, FETCH, the bare mnemonic for a
canonical STOP, ADD, AND, OR, NOT; no text for the words R70 gives none (DESIGN CHOICE, log entry 14). -/
def disassemble (w : Byte) : Option String :=
  match decode w with
  | .ok (.load _) => some ("LOAD " ++ String.ofList (decimalOf (dataField w)))
  | .ok (.store _) => some ("STORE " ++ String.ofList (decimalOf (dataField w)))
  | .ok (.fetch _) => some ("FETCH " ++ String.ofList (decimalOf (dataField w)))
  | .ok .stop => if dataField w = 0 then some "STOP" else none
  | .ok .add => if dataField w = 0 then some "ADD" else none
  | .ok .and => if dataField w = 0 then some "AND" else none
  | .ok .or => if dataField w = 0 then some "OR" else none
  | .ok .not => if dataField w = 0 then some "NOT" else none
  | .error _ => none

end Sys2Proof.Machine
end

