-- ==== Sys2Proof/Safety.lean ====
section
/-! DEFINITION. What a safe run is, and the relations that claims are stated in. -/

namespace Sys2Proof.Machine

/-- The length of the program a command carries, 0 for a command that carries none. -/
def Command.programLength : Command → Nat
  | .execute p => p.length
  | .step p => p.length
  | .state => 0
  | .clearState => 0

/-- The value range of R13: the memory list is canonical, so each listed cell is one of the sixteen and holds a
4-bit value. (Registers are 4 bits by type.) -/
def State.CellsInRange (s : State) : Prop := Memory.wf s.mem

/-- While an `execute(P)` is in progress, `pc` does not pass the end of `P` (R16, R87). -/
def State.RunInRange (s : State) : Prop := ∀ p, s.active = some p → s.pc ≤ p.length

/-- With every program at most `lenMax` long, `pc` is at most `lenMax`: the premise of R16 under which a register of
PCW bits never wraps. -/
def State.PcBounded (lenMax : Nat) (s : State) : Prop :=
  s.pc ≤ lenMax ∧ (∀ p, s.active = some p → p.length ≤ lenMax) ∧
    ∀ c ∈ s.commands, c.programLength ≤ lenMax

/-- The invariant of a safe run. -/
def State.Safe (s : State) : Prop := s.CellsInRange ∧ s.RunInRange

/-- The word that the next transition fetches and dispatches, if it runs an instruction cycle at all. -/
def State.nextWord (s : State) : Option Byte :=
  match s.active, s.commands with
  | some p, _ => if s.running then fetchWord p s.pc else none
  | none, .step p :: _ => fetchWord p s.pc
  | none, .execute _ :: _ => none
  | none, .state :: _ => none
  | none, .clearState :: _ => none
  | none, [] => none

/-- A sequence of instructions executed one after the other by `exec` alone, with no fetch. -/
def execAll : List Instr → State → Host.Outcome State Fault Refusal
  | [], s => .next s
  | i :: rest, s =>
    match exec i s with
    | .next t => execAll rest t
    | .fault f => .fault f
    | .refused r => .refused r

/-- At most `n` `step(P)` commands in a row, ended by the first that reports an error or finds no more
instructions (R84, R156). -/
def stepMany : Nat → Program → State → Host.Outcome (State × Result) Fault Refusal
  | 0, _, s => .next (s, .completed)
  | n + 1, p, s =>
    match stepCommand p s with
    | .next (t, .completed) => stepMany n p t
    | .next (t, .fault f) => .next (t, .fault f)
    | .next (t, .noMoreInstructions) => .next (t, .completed)
    | .next (t, .snapshot view) => .next (t, .snapshot view)
    | .fault f => .fault f
    | .refused r => .refused r

/-- The instructions that write memory at `addr` (R36: STORE is the only one). -/
def storesTo (addr : Nat) : Instr → Bool
  | .stop => false
  | .load _ => false
  | .store k => effectiveAddress k == addr
  | .fetch _ => false
  | .add => false
  | .and => false
  | .or => false
  | .not => false

end Sys2Proof.Machine
end

