-- ==== Sys2Proof/Certificates/Slice0/Obligations.lean ====
section
/-! DEFINITION. The statements for the provers. A statement about a next state writes that state out; `s.advancePc`,
`s.report r` and `s.raise f` are the operations of Machine/Ops.lean.

Of the rules that docstrings below name, the spec marks these as its own inferences: R7, R13, R16, R22, R36, R54, R70,
R87, R88, R93, R124, R125, R148, R174. A statement that formalises one of them is 'derived' in OBLIGATIONS.json and cites
the spec's section. What rests on a decision of the spec (D13, D15, D19) or on a log entry says so at its place. -/

open Sys2Proof Sys2Proof.Machine

/-! ### Encoding -/

/-- R58: `word = (opcode << 4) | (data & 0xF)` with both values masked to four bits, and the source's example; the
fields read back what was packed, and every word is packed from its fields (R51). -/
def Obligations.PackIsShiftOrAndFieldsInvertIt : Prop :=
  (∀ opcode data : Nat, (pack (BitVec.ofNat 4 opcode) (BitVec.ofNat 4 data)).toNat =
    ((opcode &&& 15) <<< 4) ||| (data &&& 15)) ∧
  pack 2 5 = 0x25 ∧
  (∀ opcode data : Nibble,
    opcodeField (pack opcode data) = opcode ∧ dataField (pack opcode data) = data) ∧
  ∀ w : Byte, pack (opcodeField w) (dataField w) = w ∧
    w.toNat = 16 * (opcodeField w).toNat + (dataField w).toNat

/-- The words of 95_test_vectors.md 2.1 (E1, E3, E5, E8, E10, E11, E13 to E15, E17, E19), written out bit by bit. -/
def Obligations.SpecWordsDecode : Prop :=
  decode 0b00010000 = .ok .stop ∧ decode 0b00100101 = .ok (.load 5) ∧
  decode 0b00111111 = .ok (.store 15) ∧ decode 0b01001111 = .ok (.fetch 15) ∧
  decode 0b01010000 = .ok .add ∧ decode 0b01100000 = .ok .and ∧
  decode 0b01110000 = .ok .or ∧ decode 0b10000000 = .ok .not ∧
  decode 0b00000000 = .error (.unknownOpcode 0) ∧ decode 0b10010000 = .error (.unknownOpcode 9) ∧
  decode 0b11111111 = .error (.unknownOpcode 15)

/-- R55: the words of opcode 0 and 9 to 15, and no others, are illegal; the payload is the opcode alone. -/
def Obligations.IllegalWordsAreRejected : Prop :=
  ∀ w : Byte,
    ((opcodeField w = 0 ∨ 9 ≤ (opcodeField w).toNat) →
      decode w = .error (.unknownOpcode (opcodeField w))) ∧
    ((1 ≤ (opcodeField w).toNat ∧ (opcodeField w).toNat ≤ 8) → (decode w).isOk = true)

/-- Every instruction whose address fits the data field is read back from its canonical word (R51 to R54, R58). -/
def Obligations.DecodeOfEncodeIsTheInstruction : Prop :=
  ∀ i : Instr, i.wellFormed = true → decode (encode i) = .ok i

/-- A decoded instruction is well formed, and its canonical word is the decoded word with an ignored data field set to
0 (R31: an address is always the 4-bit field; R54). -/
def Obligations.DecodedInstructionIsWellFormed : Prop :=
  ∀ (w : Byte) (i : Instr), decode w = .ok i →
    i.wellFormed = true ∧ opcodeField (encode i) = opcodeField w ∧
    (dataField (encode i) = dataField w ∨
      (dataField (encode i) = 0 ∧ i ∈ [Instr.stop, .add, .and, .or, .not]))

/-! ### Reset and invariants -/

/-- R24: every register and cell 0, `pc` 0, `running` true. -/
def Obligations.ResetLeavesSpecifiedState : Prop :=
  State.reset.a = 0 ∧ State.reset.b = 0 ∧ State.reset.c = 0 ∧ State.reset.d = 0 ∧
  (∀ k < 16, memRead State.reset k = some 0) ∧ State.reset.pc = 0 ∧ State.reset.running = true

/-- The reset state meets the invariants that the next three statements keep. -/
def Obligations.ResetMeetsInvariants : Prop :=
  State.reset.Safe ∧ ∀ lenMax, State.reset.PcBounded lenMax

/-- R13 as an invariant of every step: the memory list stays canonical, so every cell stays one of the sixteen and
holds a value in [0,15]; registers are 4 bits by type. -/
def Obligations.EveryStepKeepsCellsInRange : Prop :=
  ∀ s t : State, s.CellsInRange → step s = .next t → t.CellsInRange

/-- R16, R87: during an `execute(P)`, `pc` stays at most `len(P)`. -/
def Obligations.EveryStepKeepsRunInRange : Prop :=
  ∀ s t : State, s.RunInRange → step s = .next t → t.RunInRange

/-- R16: with programs at most `lenMax` long, `pc` stays at most `lenMax`, so a register of PCW bits with
`2^PCW > lenMax` holds it and never wraps. -/
def Obligations.PcNeverOutgrowsItsRegister : Prop :=
  ∀ (lenMax pcw : Nat) (s t : State), lenMax < 2 ^ pcw → s.PcBounded lenMax → step s = .next t →
    t.PcBounded lenMax ∧ t.pc < 2 ^ pcw

/-- Every transition answers a next state: no fault and no refusal stops the machine (R7, R82, R88; that an
error is a next state with its result reported is the model's choice, log entry 3). -/
def Obligations.EveryStepAnswersNextState : Prop :=
  ∀ s : State, ∃ t, step s = .next t

/-! ### What each instruction does -/

/-- Every instruction completes, and leaves `pc` (past the cycle's increment) and the host's side alone (R82, R93,
R15 (d)). -/
def Obligations.EveryInstructionCompletesWithoutTouchingPc : Prop :=
  ∀ (i : Instr) (s : State), ∃ t, exec i s = .next t ∧
    t.pc = s.pc ∧ t.active = s.active ∧ t.commands = s.commands ∧ t.results = s.results

/-- R100: all sixteen words of opcode 1; `running` cleared and nothing else, on every state; inside an `execute` the
run then ends with `pc` one past the STOP; under `step` the flag is cleared and nothing else follows from it. That the run ends in a transition of its own,
right after the STOP's, is the model's choice (log entry 4), which R100 does not give. -/
def Obligations.StopClearsRunningOnly : Prop :=
  (∀ data, decode (pack 1 data) = .ok .stop) ∧ encode .stop = 0x10 ∧
  (∀ s : State, exec .stop s = .next { s with running := false }) ∧
  ∀ (s : State) (p : Program) (w : Byte), fetchWord p s.pc = some w → decode w = .ok .stop →
    (s.active = some p → s.running = true →
      Host.Core.run Sys2Proof.core 2 s =
        .next { s with pc := s.pc + 1, running := false, active := none,
                       results := s.results ++ [.completed] }) ∧
    (∀ rest, s.active = none → s.commands = .step p :: rest →
      step s = .next { s with pc := s.pc + 1, running := false, commands := rest,
                              results := s.results ++ [.completed] })

/-- R110: `(a, b, c, d) <- (data, a, b, c)`. -/
def Obligations.LoadPushesImmediate : Prop :=
  (∀ data, decode (pack 2 data) = .ok (.load data)) ∧
  ∀ (data : Nibble) (s : State),
    exec (.load data) s = .next { s with a := data, b := s.a, c := s.b, d := s.c }

/-- R111, R32: the cell at the effective address takes `a`, no other cell and no other field changes; from 16 on
nothing changes at all. -/
def Obligations.StoreWritesOneCell : Prop :=
  (∀ data, decode (pack 3 data) = .ok (.store data.toNat)) ∧
  ∀ (addr : Nat) (s : State),
    (addr < 16 → ∃ m, exec (.store addr) s = .next { s with mem := m } ∧
      memRead { s with mem := m } addr = some s.a ∧
      ∀ k, k ≠ effectiveAddress addr → Memory.cell m k = Memory.cell s.mem k) ∧
    (16 ≤ addr → exec (.store addr) s = .next s)

/-- R112, R31: `(a, b, c, d) <- (mem[data], a, b, c)` and nothing else; from 16 on nothing at all. -/
def Obligations.FetchPushesCell : Prop :=
  (∀ data, decode (pack 4 data) = .ok (.fetch data.toNat)) ∧
  ∀ (addr : Nat) (s : State),
    (addr < 16 → ∃ v, memRead s addr = some v ∧
      exec (.fetch addr) s = .next { s with a := v, b := s.a, c := s.b, d := s.c }) ∧
    (16 ≤ addr → exec (.fetch addr) s = .next s)

/-- R120: the sum modulo 16 in `a` (the sum itself up to 15, 16 less above), the chain retracted, no flag. -/
def Obligations.AddWrapsAndRetracts : Prop :=
  (∀ data, decode (pack 5 data) = .ok .add) ∧ encode .add = 0x50 ∧
  ∀ s : State, ∃ r : Nibble,
    exec .add s = .next { s with a := r, b := s.c, c := s.d, d := 0 } ∧
    r.toNat = (s.a.toNat + s.b.toNat) % 16 ∧
    r.toNat = (if s.a.toNat + s.b.toNat ≤ 15 then s.a.toNat + s.b.toNat
      else s.a.toNat + s.b.toNat - 16)

/-- R121: bit by bit AND in `a`, the chain retracted. -/
def Obligations.AndIsBitwiseAndRetracts : Prop :=
  (∀ data, decode (pack 6 data) = .ok .and) ∧ encode .and = 0x60 ∧
  ∀ s : State, ∃ r : Nibble,
    exec .and s = .next { s with a := r, b := s.c, c := s.d, d := 0 } ∧
    ∀ k < 4, r.getLsbD k = (s.a.getLsbD k && s.b.getLsbD k)

/-- R122: bit by bit OR in `a`, the chain retracted. -/
def Obligations.OrIsBitwiseAndRetracts : Prop :=
  (∀ data, decode (pack 7 data) = .ok .or) ∧ encode .or = 0x70 ∧
  ∀ s : State, ∃ r : Nibble,
    exec .or s = .next { s with a := r, b := s.c, c := s.d, d := 0 } ∧
    ∀ k < 4, r.getLsbD k = (s.a.getLsbD k || s.b.getLsbD k)

/-- R123: the 4-bit complement in `a`, which is `15 - a`; the chain does not move; applied twice it restores the
state. -/
def Obligations.NotComplementsAOnly : Prop :=
  (∀ data, decode (pack 8 data) = .ok .not) ∧ encode .not = 0x80 ∧
  ∀ s : State, ∃ r : Nibble,
    exec .not s = .next { s with a := r } ∧ r.toNat = 15 - s.a.toNat ∧
    (∀ k < 4, r.getLsbD k = !s.a.getLsbD k) ∧
    exec .not { s with a := r } = .next s

/-! ### Frames -/

/-- Every instruction but STORE leaves every byte of memory unchanged, and every one but STOP the running flag
(R17, R20, R36). -/
def Obligations.NonStoringInstructionsLeaveMemory : Prop :=
  ∀ (i : Instr) (s t : State), (∀ addr, storesTo addr i = false) → exec i s = .next t →
    (∀ k, Memory.cell t.mem k = Memory.cell s.mem k) ∧
    t.pc = s.pc ∧ t.active = s.active ∧ t.commands = s.commands ∧ t.results = s.results ∧
    (i ≠ .stop → t.running = s.running)

/-- STORE's frame (R111): registers, flag, `pc`, the host's side, and every byte outside the cell at its effective
address. -/
def Obligations.StoreFrame : Prop :=
  ∀ (addr : Nat) (s t : State), exec (.store addr) s = .next t →
    t.a = s.a ∧ t.b = s.b ∧ t.c = s.c ∧ t.d = s.d ∧ t.pc = s.pc ∧ t.running = s.running ∧
    t.active = s.active ∧ t.commands = s.commands ∧ t.results = s.results ∧
    ∀ k, k ≠ effectiveAddress addr → Memory.cell t.mem k = Memory.cell s.mem k

/-- R17: an instruction can only clear the flag, and only STOP does. -/
def Obligations.OnlyStopClearsRunning : Prop :=
  ∀ (i : Instr) (s t : State), exec i s = .next t →
    t.running = (s.running && decide (i ≠ .stop))

/-- Only LOAD, FETCH, ADD, AND and OR move the chain: the other three leave `b`, `c`, `d`, and STOP and STORE leave
`a` too (R11, R12). -/
def Obligations.ChainMovesOnlyByPushAndPop : Prop :=
  ∀ (i : Instr) (s t : State), exec i s = .next t →
    (t.b = s.b ∧ t.c = s.c ∧ t.d = s.d ∧ (t.a = s.a ∨ i = .not)) ∨
    (t.b = s.a ∧ t.c = s.b ∧ t.d = s.c ∧ ((∃ v, i = .load v ∧ t.a = v) ∨ ∃ k, i = .fetch k)) ∨
    (t.b = s.c ∧ t.c = s.d ∧ t.d = 0 ∧ (i = .add ∨ i = .and ∨ i = .or))

/-! ### The memory primitives and memory order -/

/-- R32: below 16 the cell reads back the value written, every other cell and every other field is as before; from 16
on nothing changes; a decoded STORE is always below 16. -/
def Obligations.MemWriteWritesBelowSixteenOnly : Prop :=
  ∀ (s : State) (addr : Nat) (v : Nibble),
    (addr < 16 → memRead (memWrite s addr v) addr = some v ∧
      (∀ k, k ≠ addr → memRead (memWrite s addr v) k = memRead s k) ∧
      memWrite s addr v = { s with mem := (memWrite s addr v).mem }) ∧
    (16 ≤ addr → memWrite s addr v = s) ∧
    (∀ w, decode w = .ok (.store addr) → addr < 16)

/-- R31: below 16 the cell, a 4-bit value; from 16 on no value, and FETCH then does nothing; a decoded FETCH is always
below 16. -/
def Obligations.MemReadHasNoValueFromSixteenOn : Prop :=
  ∀ (s : State) (addr : Nat),
    (addr < 16 → ∃ v : Nibble, memRead s addr = some v ∧
      v.toNat = (Memory.cell s.mem addr).toNat % 16) ∧
    (16 ≤ addr → memRead s addr = none ∧ exec (.fetch addr) s = .next s) ∧
    (∀ w, decode w = .ok (.fetch addr) → addr < 16)

/-- R39 (a): a FETCH of a cell gives the value of the most recent STORE to it, whatever instructions without a STORE to
that cell stand between; and 0 where there has been none since reset. -/
def Obligations.FetchGivesMostRecentStore : Prop :=
  ∀ (addr : Nat) (between : List Instr), addr < 16 → (∀ i ∈ between, storesTo addr i = false) →
    (∀ s : State, ∃ t u, execAll (.store addr :: between) s = .next t ∧
      exec (.fetch addr) t = .next u ∧ u.a = s.a) ∧
    (∃ t u, execAll between State.reset = .next t ∧ exec (.fetch addr) t = .next u ∧ u.a = 0)

/-- R20, R36, R37 over the whole machine: a cell changes in a transition only if the word run decodes to a STORE of that
cell, or the command taken is `clear_state`. -/
def Obligations.OnlyStoreAndClearChangeACell : Prop :=
  ∀ (s t : State) (addr : Nat), step s = .next t →
    Memory.cell t.mem addr ≠ Memory.cell s.mem addr →
    (∃ w, s.nextWord = some w ∧ decode w = .ok (.store addr)) ∨
    (s.active = none ∧ s.commands.head? = some .clearState)

/-- R15: a transition that runs a word advances `pc` by exactly 1, legal or not; the start of `execute` and
`clear_state` make it 0; nothing else moves it. -/
def Obligations.PcMovesOnlyAsTheCycleAndCommandsSay : Prop :=
  ∀ s t : State, step s = .next t →
    (s.nextWord ≠ none → t.pc = s.pc + 1) ∧
    (s.nextWord = none →
      (s.active = none ∧ (s.commands.head? = some .clearState ∨ ∃ p, s.commands.head? = some (.execute p)) →
        t.pc = 0) ∧
      (¬ (s.active = none ∧ (s.commands.head? = some .clearState ∨ ∃ p, s.commands.head? = some (.execute p))) →
        t.pc = s.pc))

/-- R17 over the whole machine: the flag goes from true to false only by a STOP, from false to true only by the start of
`execute` or by `clear_state`. -/
def Obligations.RunningWrittenOnlyByStopExecuteAndClear : Prop :=
  ∀ s t : State, step s = .next t →
    (s.running = true → t.running = false → ∃ w, s.nextWord = some w ∧ decode w = .ok .stop) ∧
    (s.running = false → t.running = true →
      s.active = none ∧ (s.commands.head? = some .clearState ∨ ∃ p, s.commands.head? = some (.execute p)))

/-! ### Steps and commands -/

/-- R84, and a step runs the decoded instruction under a `step(P)` command: at or past the end of `P` the refusal and
nothing else; otherwise the command is taken, `pc` advances, `exec` runs and the result is "completed", or, for an
illegal word, `UnknownOpcode`. That the refusal changes nothing is the spec's own decision D13, to which R84 comes by
naming R142: "the source does not say so in so many words". -/
def Obligations.StepCommandRunsOneInstruction : Prop :=
  ∀ (s : State) (p : Program) (rest : List Command), s.active = none → s.commands = .step p :: rest →
    (p.length ≤ s.pc →
      step s = .next { s with commands := rest, results := s.results ++ [.noMoreInstructions] }) ∧
    (s.pc < p.length → ∃ w, fetchWord p s.pc = some w ∧
      (∀ i, decode w = .ok i →
        ∃ t, exec i { s with pc := s.pc + 1, commands := rest } = .next t ∧
          step s = .next { t with active := none, results := t.results ++ [.completed] }) ∧
      (∀ op, decode w = .error (.unknownOpcode op) →
        step s = .next { s with pc := s.pc + 1, commands := rest,
                                results := s.results ++ [.fault (.unknownOpcode op)] }))

/-- A step runs the decoded instruction, inside an `execute(P)`: `pc` advances and `exec` runs, nothing else
(R81, R83). -/
def Obligations.ExecuteTurnRunsDecodedInstruction : Prop :=
  ∀ (s : State) (p : Program) (w : Byte) (i : Instr),
    s.active = some p → s.running = true → fetchWord p s.pc = some w → decode w = .ok i →
    step s = exec i { s with pc := s.pc + 1 }

/-- The word that `withFetchWord` presents is the next one run, from any state (log entry 2). -/
def Obligations.PresentedWordIsRunNext : Prop :=
  ∀ (s : State) (w : Nat) (i : Instr), decodeTableWord 8 w = some i →
    ∃ t, exec i { s with pc := s.pc + 1, active := none } = .next t ∧
      step (s.withFetchWord 8 w) = .next { t with active := none, results := t.results ++ [.completed] }

/-- R83: `execute(P)` begins with `pc` 0 and `running` true and nothing else changed (R172), tests `running and
pc < len(P)` before every cycle, ends "completed" when the test fails, and ends at once with the error of an illegal
word. How these fall into transitions (one to begin, one a cycle, one for the loop test that ends the run) is the
model's choice (log entry 4), of which the spec says nothing. -/
def Obligations.ExecuteLoopFollowsItsTest : Prop :=
  (∀ (s : State) (p : Program) (rest : List Command), s.active = none → s.commands = .execute p :: rest →
    step s = .next { s with pc := 0, running := true, active := some p, commands := rest }) ∧
  ∀ (s : State) (p : Program), s.active = some p →
    (¬ (s.running = true ∧ s.pc < p.length) →
      step s = .next { s with active := none, results := s.results ++ [.completed] }) ∧
    (s.running = true ∧ s.pc < p.length → ∃ w, fetchWord p s.pc = some w ∧
      (∀ op, decode w = .error (.unknownOpcode op) →
        step s = .next { s with pc := s.pc + 1, active := none,
                                results := s.results ++ [.fault (.unknownOpcode op)] }) ∧
      (∀ i, decode w = .ok i → step s = exec i { s with pc := s.pc + 1 }))

/-- R141, as the fault's state and payload: under `step` and inside `execute` alike, only `pc` has advanced in the
engine, the command ends and its result is `UnknownOpcode(w[7:4])`. -/
def Obligations.UnknownOpcodeAdvancesPcOnly : Prop :=
  ∀ (s : State) (p : Program) (w : Byte),
    fetchWord p s.pc = some w → (opcodeField w = 0 ∨ 9 ≤ (opcodeField w).toNat) →
    (∀ rest, s.active = none → s.commands = .step p :: rest →
      step s = .next { s with pc := s.pc + 1, commands := rest,
                              results := s.results ++ [.fault (.unknownOpcode (opcodeField w))] }) ∧
    (s.active = some p → s.running = true →
      step s = .next { s with pc := s.pc + 1, active := none,
                              results := s.results ++ [.fault (.unknownOpcode (opcodeField w))] })

/-- R148: after an `UnknownOpcode`, a `step` of the same program runs the word after the illegal one. That any command may
follow an error is the spec's own decision D19. -/
def Obligations.StepResumesAfterIllegalWord : Prop :=
  ∀ (s : State) (p : Program) (rest : List Command) (bad good : Byte) (op : Nibble) (i : Instr),
    s.active = none → s.commands = .step p :: .step p :: rest →
    fetchWord p s.pc = some bad → decode bad = .error (.unknownOpcode op) →
    fetchWord p (s.pc + 1) = some good → decode good = .ok i →
    ∃ t, exec i { s with pc := s.pc + 2, commands := rest,
                         results := s.results ++ [.fault (.unknownOpcode op)] } = .next t ∧
      Host.Core.run Sys2Proof.core 2 s =
        .next { t with active := none, results := t.results ++ [.completed] }

/-- A `step` at or past the end of its program is refused, with the engine unchanged; and no other transition reports
`NoMoreInstructions` (60_exceptions.md section 1). That nothing changes is the spec's own decision D13, marked as such in
R142: "the source does not say so in so many words". -/
def Obligations.NoMoreInstructionsChangesNothing : Prop :=
  (∀ (s : State) (p : Program) (rest : List Command), s.active = none → s.commands = .step p :: rest →
    p.length ≤ s.pc →
    step s = .next { s with commands := rest, results := s.results ++ [.noMoreInstructions] }) ∧
  ∀ s t : State, step s = .next t → t.results = s.results ++ [.noMoreInstructions] →
    s.active = none ∧ ∃ p rest, s.commands = .step p :: rest ∧ p.length ≤ s.pc

/-- R91: `step` executes the instruction at `pc` with the flag down as with it up, and the flag stays down. -/
def Obligations.StepIgnoresRunningFlag : Prop :=
  ∀ (s : State) (p : Program) (rest : List Command),
    s.active = none → s.commands = .step p :: rest →
    ∃ t, step { s with running := true } = .next t ∧
      step { s with running := false } = .next { t with running := false }

/-- R85, R23: the snapshot is pc, the four registers and the sixteen cells in address order; nothing changes in
the engine. -/
def Obligations.StateCommandReturnsSnapshot : Prop :=
  ∀ (s : State) (rest : List Command), s.active = none → s.commands = .state :: rest →
    ∃ view : Snapshot,
      step s = .next { s with commands := rest, results := s.results ++ [.snapshot view] } ∧
      view.pc = s.pc ∧ view.a = s.a ∧ view.b = s.b ∧ view.c = s.c ∧ view.d = s.d ∧
      view.memory.length = 16 ∧ ∀ k < 16, view.memory[k]? = memRead s k

/-- R86, R171: `clear_state` leaves the engine as reset leaves it, whatever the state before, and cannot fail. -/
def Obligations.ClearStateResetsEngine : Prop :=
  ∀ (s : State) (rest : List Command), s.active = none → s.commands = .clearState :: rest →
    step s = .next { State.reset with commands := rest, results := s.results ++ [.completed] }

/-- R173: with no command given and none in progress the engine executes nothing (that it then stutters is the
model's choice, log entry 5). -/
def Obligations.IdleEngineExecutesNothing : Prop :=
  ∀ s : State, s.active = none → s.commands = [] → step s = .next s

/-! ### Whole commands -/

/-- R87: `execute(P)` ends in one of three ways: at a STOP of index `n`, off the end, or at an illegal word of index `n`;
the words before are legal and none is STOP, the registers and memory are as those instructions left them, and
`pc`, `running` and the result are as the rule says. -/
def Obligations.ExecuteEndsInOneOfThreeWays : Prop :=
  ∀ (p : Program) (s : State), ∃ (n : Nat) (ran : List Instr) (u : State),
    (p.take n).map decode = ran.map .ok ∧ Instr.stop ∉ ran ∧ execAll ran s = .next u ∧
    ((n < p.length ∧ (∃ w, p[n]? = some w ∧ decode w = .ok .stop) ∧
        executeCommand p s = .next ({ u with pc := n + 1, running := false }, .completed)) ∨
      (n = p.length ∧
        executeCommand p s = .next ({ u with pc := p.length, running := true }, .completed)) ∨
      (n < p.length ∧ ∃ w op, p[n]? = some w ∧ decode w = .error (.unknownOpcode op) ∧
        executeCommand p s = .next ({ u with pc := n + 1, running := true }, .fault (.unknownOpcode op))))

/-- R88, R95: every command ends, after at most `len(P) + 2` transitions of the machine (one to take it, one a
cycle, one for the last loop test: the grain of log entry 4), in the state and with the result that the command has as a whole. -/
def Obligations.MachineRefinesWholeCommands : Prop :=
  ∀ (s : State) (cmd : Command) (rest : List Command), s.active = none → s.commands = cmd :: rest →
    ∃ n ≤ cmd.programLength + 2, ∃ t r, runCommand cmd { s with commands := rest } = .next (t, r) ∧
      Host.Core.run Sys2Proof.core n s = .next { t with active := none, results := t.results ++ [r] }

/-- R22: with no `execute` in progress, the running flag's value changes nothing that the host can see, however
long the machine runs on: the two runs agree in everything but the flag. -/
def Obligations.IdleRunningFlagIsUnobservable : Prop :=
  ∀ (n : Nat) (s : State) (b : Bool), s.active = none →
    ∃ t u, Host.Core.run Sys2Proof.core n s = .next t ∧
      Host.Core.run Sys2Proof.core n { s with running := b } = .next u ∧
      u = { t with running := u.running }

/-- R156: for a program without a STOP word, single steps from the start of the run do exactly what `execute` does. -/
def Obligations.SteppingEqualsExecutingWithoutStop : Prop :=
  ∀ (p : Program) (s : State), (∀ w ∈ p, decode w ≠ .ok .stop) →
    stepMany p.length p { s with pc := 0, running := true } = executeCommand p s

/-! ### Consequences of the arithmetic rules -/

/-- R125, for every state: (1) what the two-operand instructions leave of the chain, (2) NOT twice, (3) two pushes and an
operation, (4) one push and an operation, (5) no change elsewhere. -/
def Obligations.AluConsequences : Prop :=
  (∀ s : State, ∀ i ∈ [Instr.add, .and, .or],
    ∃ t, exec i s = .next t ∧ t.d = 0 ∧ t.b = s.c ∧ t.c = s.d) ∧
  (∀ s : State, execAll [.not, .not] s = .next s) ∧
  (∀ (s : State) (x y : Nibble),
    execAll [.load x, .load y, .add] s = .next { s with a := x + y, b := s.a, c := s.b, d := 0 } ∧
    execAll [.load x, .load y, .and] s = .next { s with a := x &&& y, b := s.a, c := s.b, d := 0 } ∧
    execAll [.load x, .load y, .or] s = .next { s with a := x ||| y, b := s.a, c := s.b, d := 0 }) ∧
  (∀ (s : State) (x : Nibble),
    execAll [.load x, .add] s = .next { s with a := x + s.a, b := s.b, c := s.c, d := 0 }) ∧
  (∀ s : State, ∀ i ∈ [Instr.add, .and, .or, .not],
    ∃ t, exec i s = .next t ∧ t.mem = s.mem ∧ t.running = s.running ∧ t.pc = s.pc)

/-- R124: ADD is also the signed sum modulo 16, and `x - y` modulo 16 is `x + NOT y + 1` (program P5). -/
def Obligations.SubtractionByComplementAndAdd : Prop :=
  (∀ s : State, ∃ t, exec .add s = .next t ∧ t.a.toInt = (s.a.toInt + s.b.toInt).bmod 16) ∧
  ∀ (s : State) (x y : Nibble),
    ∃ t, execAll [.load 1, .load y, .not, .add, .load x, .add] s = .next t ∧
      (t.a.toNat : Int) = ((x.toNat : Int) - y.toNat) % 16

/-- R110, R174: four pushes give all four registers values of the program's own, from any state. -/
def Obligations.FourPushesOverwriteTheChain : Prop :=
  ∀ (s : State) (w x y z : Nibble),
    execAll [.load w, .load x, .load y, .load z] s = .next { s with a := z, b := y, c := x, d := w }

/-! ### The assembler, outside the engine -/

/-- R71: the worked example. -/
def Obligations.AssemblerWorkedExample : Prop :=
  assemble "LOAD 5\nSTORE 0\nFETCH 0\nSTOP" = .ok [0x25, 0x30, 0x40, 0x10]

/-- R63: the assembler cannot produce an illegal word. -/
def Obligations.AssemblerEmitsLegalWordsOnly : Prop :=
  ∀ (source : String) (p : Program), assemble source = .ok p → ∀ w ∈ p, ∃ i, decode w = .ok i

/-- The data field is the non-negative remainder of the operand modulo 16 (30_encoding.md Part 2, truncation). For a
negative operand this is the spec's own decision D15, taken "from general knowledge, not in source" (DEDUCED and
PRESUMED, log entry 13); for an operand from 0 on it is the source's truncation to the low four bits. -/
def Obligations.OperandIsTruncatedToFourBits : Prop :=
  ∀ operand : Int, ((truncateOperand operand).toNat : Int) = operand % 16

/-- R60, R68, R69: `assemble` gives no output exactly when some error applies, and then reports one of those that
apply, whatever the free choice of log entry 11 is. -/
def Obligations.AssemblerReportsAnApplicableError : Prop :=
  ∀ source : String,
    (assemblerErrors source.toList = [] → assemble source = .ok (assembledWords source.toList)) ∧
    (assemblerErrors source.toList ≠ [] →
      ∃ e ∈ assemblerErrors source.toList, assemble source = .error e)

/-- R70: assembling the text the spec writes for a word gives that word back. -/
def Obligations.DisassemblyAssemblesBack : Prop :=
  ∀ (w : Byte) (text : String), disassemble w = some text → assemble text = .ok [w]

/-- An assembled program never raises `UnknownOpcode`: every `execute` of it is completed (R63, R87). -/
def Obligations.AssembledProgramNeverFaults : Prop :=
  ∀ (source : String) (p : Program) (s : State), assemble source = .ok p →
    ∃ t, executeCommand p s = .next (t, .completed)
end

