-- ==== Sys2Proof/Laws/State.lean ====
section
/-! SUPPORT. What each named update does to each field of the state. -/

namespace Sys2Proof.Machine

/-! ### State.setA -/

@[simp] theorem State.setA_a (s : State) (v : Nibble) : (s.setA v).a = v := rfl
@[simp] theorem State.setA_b (s : State) (v : Nibble) : (s.setA v).b = s.b := rfl
@[simp] theorem State.setA_c (s : State) (v : Nibble) : (s.setA v).c = s.c := rfl
@[simp] theorem State.setA_d (s : State) (v : Nibble) : (s.setA v).d = s.d := rfl
@[simp] theorem State.setA_mem (s : State) (v : Nibble) : (s.setA v).mem = s.mem := rfl
@[simp] theorem State.setA_pc (s : State) (v : Nibble) : (s.setA v).pc = s.pc := rfl
@[simp] theorem State.setA_running (s : State) (v : Nibble) : (s.setA v).running = s.running := rfl
@[simp] theorem State.setA_active (s : State) (v : Nibble) : (s.setA v).active = s.active := rfl
@[simp] theorem State.setA_commands (s : State) (v : Nibble) : (s.setA v).commands = s.commands := rfl
@[simp] theorem State.setA_results (s : State) (v : Nibble) : (s.setA v).results = s.results := rfl

/-! ### State.push -/

@[simp] theorem State.push_a (s : State) (v : Nibble) : (s.push v).a = v := rfl
@[simp] theorem State.push_b (s : State) (v : Nibble) : (s.push v).b = s.a := rfl
@[simp] theorem State.push_c (s : State) (v : Nibble) : (s.push v).c = s.b := rfl
@[simp] theorem State.push_d (s : State) (v : Nibble) : (s.push v).d = s.c := rfl
@[simp] theorem State.push_mem (s : State) (v : Nibble) : (s.push v).mem = s.mem := rfl
@[simp] theorem State.push_pc (s : State) (v : Nibble) : (s.push v).pc = s.pc := rfl
@[simp] theorem State.push_running (s : State) (v : Nibble) : (s.push v).running = s.running := rfl
@[simp] theorem State.push_active (s : State) (v : Nibble) : (s.push v).active = s.active := rfl
@[simp] theorem State.push_commands (s : State) (v : Nibble) : (s.push v).commands = s.commands := rfl
@[simp] theorem State.push_results (s : State) (v : Nibble) : (s.push v).results = s.results := rfl

/-! ### State.pop -/

@[simp] theorem State.pop_a (s : State) : s.pop.a = s.a := rfl
@[simp] theorem State.pop_b (s : State) : s.pop.b = s.c := rfl
@[simp] theorem State.pop_c (s : State) : s.pop.c = s.d := rfl
@[simp] theorem State.pop_d (s : State) : s.pop.d = 0 := rfl
@[simp] theorem State.pop_mem (s : State) : s.pop.mem = s.mem := rfl
@[simp] theorem State.pop_pc (s : State) : s.pop.pc = s.pc := rfl
@[simp] theorem State.pop_running (s : State) : s.pop.running = s.running := rfl
@[simp] theorem State.pop_active (s : State) : s.pop.active = s.active := rfl
@[simp] theorem State.pop_commands (s : State) : s.pop.commands = s.commands := rfl
@[simp] theorem State.pop_results (s : State) : s.pop.results = s.results := rfl

/-! ### State.advancePc -/

@[simp] theorem State.advancePc_a (s : State) : s.advancePc.a = s.a := rfl
@[simp] theorem State.advancePc_b (s : State) : s.advancePc.b = s.b := rfl
@[simp] theorem State.advancePc_c (s : State) : s.advancePc.c = s.c := rfl
@[simp] theorem State.advancePc_d (s : State) : s.advancePc.d = s.d := rfl
@[simp] theorem State.advancePc_mem (s : State) : s.advancePc.mem = s.mem := rfl
@[simp] theorem State.advancePc_pc (s : State) : s.advancePc.pc = s.pc + 1 := rfl
@[simp] theorem State.advancePc_running (s : State) : s.advancePc.running = s.running := rfl
@[simp] theorem State.advancePc_active (s : State) : s.advancePc.active = s.active := rfl
@[simp] theorem State.advancePc_commands (s : State) : s.advancePc.commands = s.commands := rfl
@[simp] theorem State.advancePc_results (s : State) : s.advancePc.results = s.results := rfl

/-! ### State.report -/

@[simp] theorem State.report_a (s : State) (r : Result) : (s.report r).a = s.a := rfl
@[simp] theorem State.report_b (s : State) (r : Result) : (s.report r).b = s.b := rfl
@[simp] theorem State.report_c (s : State) (r : Result) : (s.report r).c = s.c := rfl
@[simp] theorem State.report_d (s : State) (r : Result) : (s.report r).d = s.d := rfl
@[simp] theorem State.report_mem (s : State) (r : Result) : (s.report r).mem = s.mem := rfl
@[simp] theorem State.report_pc (s : State) (r : Result) : (s.report r).pc = s.pc := rfl
@[simp] theorem State.report_running (s : State) (r : Result) : (s.report r).running = s.running := rfl
@[simp] theorem State.report_active (s : State) (r : Result) : (s.report r).active = none := rfl
@[simp] theorem State.report_commands (s : State) (r : Result) : (s.report r).commands = s.commands := rfl
@[simp] theorem State.report_results (s : State) (r : Result) : (s.report r).results = s.results ++ [r] := rfl

/-! ### State.raise -/

@[simp] theorem State.raise_a (s : State) (f : Fault) : (s.raise f).a = s.a := rfl
@[simp] theorem State.raise_b (s : State) (f : Fault) : (s.raise f).b = s.b := rfl
@[simp] theorem State.raise_c (s : State) (f : Fault) : (s.raise f).c = s.c := rfl
@[simp] theorem State.raise_d (s : State) (f : Fault) : (s.raise f).d = s.d := rfl
@[simp] theorem State.raise_mem (s : State) (f : Fault) : (s.raise f).mem = s.mem := rfl
@[simp] theorem State.raise_pc (s : State) (f : Fault) : (s.raise f).pc = s.pc := rfl
@[simp] theorem State.raise_running (s : State) (f : Fault) : (s.raise f).running = s.running := rfl
@[simp] theorem State.raise_active (s : State) (f : Fault) : (s.raise f).active = none := rfl
@[simp] theorem State.raise_commands (s : State) (f : Fault) : (s.raise f).commands = s.commands := rfl
@[simp] theorem State.raise_results (s : State) (f : Fault) : (s.raise f).results = s.results ++ [.fault f] := rfl

/-! ### State.clearEngine -/

@[simp] theorem State.clearEngine_a (s : State) : s.clearEngine.a = 0 := rfl
@[simp] theorem State.clearEngine_b (s : State) : s.clearEngine.b = 0 := rfl
@[simp] theorem State.clearEngine_c (s : State) : s.clearEngine.c = 0 := rfl
@[simp] theorem State.clearEngine_d (s : State) : s.clearEngine.d = 0 := rfl
@[simp] theorem State.clearEngine_mem (s : State) : s.clearEngine.mem = [] := rfl
@[simp] theorem State.clearEngine_pc (s : State) : s.clearEngine.pc = 0 := rfl
@[simp] theorem State.clearEngine_running (s : State) : s.clearEngine.running = true := rfl
@[simp] theorem State.clearEngine_active (s : State) : s.clearEngine.active = s.active := rfl
@[simp] theorem State.clearEngine_commands (s : State) : s.clearEngine.commands = s.commands := rfl
@[simp] theorem State.clearEngine_results (s : State) : s.clearEngine.results = s.results := rfl

/-! ### State.presentWord -/

@[simp] theorem State.presentWord_a (s : State) (w : Byte) : (s.presentWord w).a = s.a := rfl
@[simp] theorem State.presentWord_b (s : State) (w : Byte) : (s.presentWord w).b = s.b := rfl
@[simp] theorem State.presentWord_c (s : State) (w : Byte) : (s.presentWord w).c = s.c := rfl
@[simp] theorem State.presentWord_d (s : State) (w : Byte) : (s.presentWord w).d = s.d := rfl
@[simp] theorem State.presentWord_mem (s : State) (w : Byte) : (s.presentWord w).mem = s.mem := rfl
@[simp] theorem State.presentWord_pc (s : State) (w : Byte) : (s.presentWord w).pc = s.pc := rfl
@[simp] theorem State.presentWord_running (s : State) (w : Byte) : (s.presentWord w).running = s.running := rfl
@[simp] theorem State.presentWord_active (s : State) (w : Byte) : (s.presentWord w).active = none := rfl
@[simp] theorem State.presentWord_commands (s : State) (w : Byte) : (s.presentWord w).commands = .step (List.replicate s.pc 0 ++ [w]) :: s.commands := rfl
@[simp] theorem State.presentWord_results (s : State) (w : Byte) : (s.presentWord w).results = s.results := rfl

/-! ### State.combine -/

@[simp] theorem State.combine_a (s : State) (op : Nibble → Nibble → Nibble) : (s.combine op).a = op s.a s.b := rfl
@[simp] theorem State.combine_b (s : State) (op : Nibble → Nibble → Nibble) : (s.combine op).b = s.c := rfl
@[simp] theorem State.combine_c (s : State) (op : Nibble → Nibble → Nibble) : (s.combine op).c = s.d := rfl
@[simp] theorem State.combine_d (s : State) (op : Nibble → Nibble → Nibble) : (s.combine op).d = 0 := rfl
@[simp] theorem State.combine_mem (s : State) (op : Nibble → Nibble → Nibble) : (s.combine op).mem = s.mem := rfl
@[simp] theorem State.combine_pc (s : State) (op : Nibble → Nibble → Nibble) : (s.combine op).pc = s.pc := rfl
@[simp] theorem State.combine_running (s : State) (op : Nibble → Nibble → Nibble) : (s.combine op).running = s.running := rfl
@[simp] theorem State.combine_active (s : State) (op : Nibble → Nibble → Nibble) : (s.combine op).active = s.active := rfl
@[simp] theorem State.combine_commands (s : State) (op : Nibble → Nibble → Nibble) : (s.combine op).commands = s.commands := rfl
@[simp] theorem State.combine_results (s : State) (op : Nibble → Nibble → Nibble) : (s.combine op).results = s.results := rfl

/-! ### State.clearRunning -/

@[simp] theorem State.clearRunning_a (s : State) : s.clearRunning.a = s.a := rfl
@[simp] theorem State.clearRunning_b (s : State) : s.clearRunning.b = s.b := rfl
@[simp] theorem State.clearRunning_c (s : State) : s.clearRunning.c = s.c := rfl
@[simp] theorem State.clearRunning_d (s : State) : s.clearRunning.d = s.d := rfl
@[simp] theorem State.clearRunning_mem (s : State) : s.clearRunning.mem = s.mem := rfl
@[simp] theorem State.clearRunning_pc (s : State) : s.clearRunning.pc = s.pc := rfl
@[simp] theorem State.clearRunning_running (s : State) : s.clearRunning.running = false := rfl
@[simp] theorem State.clearRunning_active (s : State) : s.clearRunning.active = s.active := rfl
@[simp] theorem State.clearRunning_commands (s : State) : s.clearRunning.commands = s.commands := rfl
@[simp] theorem State.clearRunning_results (s : State) : s.clearRunning.results = s.results := rfl

/-! ### State.beginRun -/

@[simp] theorem State.beginRun_a (s : State) : s.beginRun.a = s.a := rfl
@[simp] theorem State.beginRun_b (s : State) : s.beginRun.b = s.b := rfl
@[simp] theorem State.beginRun_c (s : State) : s.beginRun.c = s.c := rfl
@[simp] theorem State.beginRun_d (s : State) : s.beginRun.d = s.d := rfl
@[simp] theorem State.beginRun_mem (s : State) : s.beginRun.mem = s.mem := rfl
@[simp] theorem State.beginRun_pc (s : State) : s.beginRun.pc = 0 := rfl
@[simp] theorem State.beginRun_running (s : State) : s.beginRun.running = true := rfl
@[simp] theorem State.beginRun_active (s : State) : s.beginRun.active = s.active := rfl
@[simp] theorem State.beginRun_commands (s : State) : s.beginRun.commands = s.commands := rfl
@[simp] theorem State.beginRun_results (s : State) : s.beginRun.results = s.results := rfl

end Sys2Proof.Machine
end

