-- ==== Sys2Proof/Laws/Memory.lean ====
section
/-! SUPPORT. The memory list: reads after writes, and the canonical form kept by every operation. -/

namespace Sys2Proof.Machine

/-! ### Reading after erasing, inserting, writing -/

theorem Memory.cell_erase (m : Memory) (addr k : Nat) :
    Memory.cell (Memory.erase m addr) k = if addr = k then 0 else Memory.cell m k := by
  induction m with
  | nil => simp [Memory.erase, Memory.cell]
  | cons e m ih =>
    obtain ⟨j, v⟩ := e
    by_cases hj : j = addr
    · subst hj
      rw [Memory.erase, if_pos rfl, ih]
      by_cases hk : j = k <;> simp [Memory.cell, hk]
    · rw [Memory.erase, if_neg hj]
      simp only [Memory.cell, ih]
      by_cases hjk : j = k
      · have : addr ≠ k := fun h => hj (hjk.trans h.symm)
        simp [hjk, this]
      · simp [hjk]

/-- Inserting at an address that reads as 0 changes the reading there and nowhere else. -/
theorem Memory.cell_insert (m : Memory) (addr : Nat) (v : Byte) (k : Nat)
    (habs : ∀ e ∈ m, e.1 ≠ addr) :
    Memory.cell (Memory.insert m addr v) k = if addr = k then v else Memory.cell m k := by
  induction m with
  | nil => simp [Memory.insert, Memory.cell]
  | cons e m ih =>
    obtain ⟨j, w⟩ := e
    have hj : j ≠ addr := habs (j, w) (by simp)
    by_cases hlt : addr < j
    · simp [Memory.insert, hlt, Memory.cell]
    · rw [Memory.insert, if_neg hlt]
      simp only [Memory.cell, ih fun e he => habs e (List.mem_cons_of_mem _ he)]
      by_cases hjk : j = k
      · have : addr ≠ k := fun h => hj (hjk.trans h.symm)
        simp [hjk, this]
      · simp [hjk]

theorem Memory.mem_erase {m : Memory} {addr : Nat} {e : Host.Cell} :
    e ∈ Memory.erase m addr ↔ e ∈ m ∧ e.1 ≠ addr := by
  induction m with
  | nil => simp [Memory.erase]
  | cons x m ih =>
    obtain ⟨j, v⟩ := x
    by_cases hj : j = addr
    · rw [Memory.erase, if_pos hj, ih, List.mem_cons]
      constructor
      · exact fun h => ⟨.inr h.1, h.2⟩
      · rintro ⟨rfl | h, hne⟩
        · exact absurd hj hne
        · exact ⟨h, hne⟩
    · rw [Memory.erase, if_neg hj, List.mem_cons, List.mem_cons, ih]
      constructor
      · rintro (rfl | h)
        · exact ⟨.inl rfl, hj⟩
        · exact ⟨.inr h.1, h.2⟩
      · rintro ⟨rfl | h, hne⟩
        · exact .inl rfl
        · exact .inr ⟨h, hne⟩

/-- A read after a write, at any two addresses and on any list, canonical or not. -/
theorem Memory.cell_put (m : Memory) (addr : Nat) (v : Byte) (k : Nat) :
    Memory.cell (Memory.put m addr v) k = if addr = k then v else Memory.cell m k := by
  by_cases hv : v = 0
  · rw [Memory.put, if_pos hv, Memory.cell_erase, hv]
  · rw [Memory.put, if_neg hv,
      Memory.cell_insert _ _ _ _ fun e he => (Memory.mem_erase.mp he).2, Memory.cell_erase]
    by_cases hk : addr = k <;> simp [hk]

/-! ### The canonical form -/

theorem Memory.wf_nil : Memory.wf [] := ⟨List.Pairwise.nil, fun _ h => absurd h List.not_mem_nil⟩

theorem Memory.erase_pairwise {m : Memory} {addr : Nat} (h : m.Pairwise fun x y => x.1 < y.1) :
    (Memory.erase m addr).Pairwise fun x y => x.1 < y.1 := by
  induction m with
  | nil => simp [Memory.erase]
  | cons x m ih =>
    obtain ⟨j, v⟩ := x
    rw [List.pairwise_cons] at h
    by_cases hj : j = addr
    · rw [Memory.erase, if_pos hj]
      exact ih h.2
    · rw [Memory.erase, if_neg hj, List.pairwise_cons]
      exact ⟨fun e he => h.1 e (Memory.mem_erase.mp he).1, ih h.2⟩

theorem Memory.mem_insert {m : Memory} {addr : Nat} {v : Byte} {e : Host.Cell} :
    e ∈ Memory.insert m addr v ↔ e = (addr, v) ∨ e ∈ m := by
  induction m with
  | nil => simp [Memory.insert]
  | cons x m ih =>
    obtain ⟨j, w⟩ := x
    by_cases hlt : addr < j
    · rw [Memory.insert, if_pos hlt, List.mem_cons]
    · rw [Memory.insert, if_neg hlt, List.mem_cons, List.mem_cons, ih]
      exact or_left_comm

theorem Memory.insert_pairwise {m : Memory} {addr : Nat} {v : Byte}
    (h : m.Pairwise fun x y => x.1 < y.1) (habs : ∀ e ∈ m, e.1 ≠ addr) :
    (Memory.insert m addr v).Pairwise fun x y => x.1 < y.1 := by
  induction m with
  | nil => simp [Memory.insert]
  | cons x m ih =>
    obtain ⟨j, w⟩ := x
    have hx := List.pairwise_cons.mp h
    by_cases hlt : addr < j
    · rw [Memory.insert, if_pos hlt, List.pairwise_cons]
      refine ⟨fun e he => ?_, h⟩
      rcases List.mem_cons.mp he with rfl | he
      · exact hlt
      · exact hlt.trans (hx.1 e he)
    · have hj : j ≠ addr := habs (j, w) (by simp)
      rw [Memory.insert, if_neg hlt, List.pairwise_cons]
      refine ⟨fun e he => ?_, ih hx.2 fun e he => habs e (List.mem_cons_of_mem _ he)⟩
      rcases Memory.mem_insert.mp he with rfl | he
      · exact lt_of_le_of_ne (Nat.le_of_not_lt hlt) hj
      · exact hx.1 e he

/-- Writing a 4-bit value to one of the sixteen cells keeps the canonical form. -/
theorem Memory.wf_put {m : Memory} {addr : Nat} {v : Byte} (h : Memory.wf m)
    (haddr : addr < Config.memSize) (hv : v.toNat < 16) : Memory.wf (Memory.put m addr v) := by
  obtain ⟨hsorted, hrange⟩ := h
  have herase : Memory.wf (Memory.erase m addr) :=
    ⟨Memory.erase_pairwise hsorted, fun e he => hrange e (Memory.mem_erase.mp he).1⟩
  by_cases hz : v = 0
  · rwa [Memory.put, if_pos hz]
  · rw [Memory.put, if_neg hz]
    refine ⟨Memory.insert_pairwise herase.1 fun e he => (Memory.mem_erase.mp he).2, fun e he => ?_⟩
    rcases Memory.mem_insert.mp he with rfl | he
    · exact ⟨haddr, hz, hv⟩
    · exact herase.2 e he

theorem State.reset_mem_wf : Memory.wf State.reset.mem := Memory.wf_nil

end Sys2Proof.Machine
end

