-- ==== Sys2Proof/Laws/Ops.lean ====
section
/-! SUPPORT. One lemma per shared operation, saying once everything it can do. -/

namespace Sys2Proof.Machine

/-! ### Operand forms -/

@[simp] theorem immediate_eq (data : Nibble) : immediate data = data := rfl

@[simp] theorem effectiveAddress_eq (addr : Nat) : effectiveAddress addr = addr := rfl

/-! ### The memory primitives -/

theorem memRead_of_lt {s : State} {addr : Nat} (h : addr < Config.memSize) :
    memRead s addr = some ((Memory.cell s.mem addr).setWidth 4) := if_pos h

theorem memRead_of_ge {s : State} {addr : Nat} (h : Config.memSize ≤ addr) : memRead s addr = none :=
  if_neg (Nat.not_lt.mpr h)

theorem memWrite_of_ge {s : State} {addr : Nat} {v : Nibble} (h : Config.memSize ≤ addr) :
    memWrite s addr v = s := if_neg (Nat.not_lt.mpr h)

/-- `MemWrite` changes the memory list at most. -/
theorem memWrite_eq (s : State) (addr : Nat) (v : Nibble) :
    memWrite s addr v = { s with mem := (memWrite s addr v).mem } := by
  unfold memWrite; split <;> rfl

/-- What `MemWrite` leaves in every cell, on any memory list. -/
theorem memWrite_cell (s : State) (addr : Nat) (v : Nibble) (k : Nat) :
    Memory.cell (memWrite s addr v).mem k =
      if addr < Config.memSize ∧ addr = k then v.setWidth 8 else Memory.cell s.mem k := by
  unfold memWrite
  by_cases h : addr < Config.memSize
  · simp only [h, if_true, true_and]
    exact Memory.cell_put _ _ _ _
  · simp [h]

/-- A 4-bit value survives its byte. -/
theorem nibble_setWidth (v : Nibble) : (v.setWidth 8).setWidth 4 = v := by
  revert v; decide

theorem memWrite_wf {s : State} {addr : Nat} {v : Nibble} (h : Memory.wf s.mem) :
    Memory.wf (memWrite s addr v).mem := by
  by_cases haddr : addr < Config.memSize
  · rw [memWrite, if_pos haddr]
    refine Memory.wf_put h haddr ?_
    revert v; decide
  · rwa [memWrite, if_neg haddr]

/-! ### Pushing a cell -/

/-- `pushCell` either pushes the cell's value or does nothing. -/
theorem State.pushCell_cases (s : State) (addr : Nat) :
    (∃ v, memRead s addr = some v ∧ s.pushCell addr = s.push v) ∨
      (memRead s addr = none ∧ s.pushCell addr = s) := by
  unfold State.pushCell
  cases h : memRead s addr with
  | some v => exact .inl ⟨v, rfl, rfl⟩
  | none => exact .inr ⟨rfl, rfl⟩

/-! ### Fetching -/

theorem fetchWord_eq_some {p : Program} {k : Nat} {w : Byte} (h : fetchWord p k = some w) :
    k < p.length := (List.getElem?_eq_some_iff.mp h).1

theorem fetchWord_eq_none {p : Program} {k : Nat} : fetchWord p k = none ↔ p.length ≤ k :=
  List.getElem?_eq_none_iff

/-! ### The cycle -/

/-- All that a cycle can answer: what `exec` answers on the decoded instruction, or an error in the state whose
`pc` has advanced. -/
theorem cycle_cases (w : Byte) (s : State) :
    (∃ i, decode w = .ok i ∧
      cycle w s = match exec i s.advancePc with
        | .next t => .next (t, none)
        | .fault f => .fault f
        | .refused r => .refused r) ∨
    (∃ op, decode w = .error (.unknownOpcode op) ∧
      cycle w s = .next (s.advancePc, some (.unknownOpcode op))) := by
  unfold cycle dispatchWord
  cases h : decode w with
  | ok i => exact .inl ⟨i, rfl, rfl⟩
  | error e => obtain ⟨op⟩ := e; exact .inr ⟨op, rfl, rfl⟩

theorem cycle_of_ok {w : Byte} {i : Instr} {s t : State} (hd : decode w = .ok i)
    (he : exec i s.advancePc = .next t) : cycle w s = .next (t, none) := by
  simp [cycle, dispatchWord, hd, he]

theorem cycle_of_error {w : Byte} {op : Nibble} {s : State} (hd : decode w = .error (.unknownOpcode op)) :
    cycle w s = .next (s.advancePc, some (.unknownOpcode op)) := by
  simp [cycle, dispatchWord, hd]

end Sys2Proof.Machine
end

