-- ==== Sys2Proof/Laws/Exec.lean ====
section
/-! SUPPORT. What `exec` does not look at: `pc`, the running flag and the host's side. -/

namespace Sys2Proof.Machine

/-- The state with `pc`, the flag and the host's side replaced: what `exec` neither reads nor, STOP's flag apart,
writes. -/
def State.withOutside (s : State) (pc : Nat) (running : Bool) (active : Option Program)
    (commands : List Command) (results : List Result) : State :=
  { s with pc := pc, running := running, active := active, commands := commands, results := results }

/-- Two executions that differ only outside the registers and memory end with the same registers and memory. -/
theorem exec_withOutside {i : Instr} {s t : State} (h : exec i s = .next t) (pc : Nat) (running : Bool)
    (active : Option Program) (commands : List Command) (results : List Result) :
    exec i (s.withOutside pc running active commands results) =
      .next (t.withOutside pc (running && decide (i ≠ .stop)) active commands results) := by
  cases i with
  | store addr =>
    cases h
    simp only [exec, execStore, effectiveAddress_eq, memWrite, State.withOutside]
    by_cases haddr : addr < Config.memSize <;> simp [haddr]
  | fetch addr =>
    cases h
    have hread : memRead (s.withOutside pc running active commands results) addr = memRead s addr := rfl
    simp only [exec, execFetch, effectiveAddress_eq, State.pushCell, hread]
    cases memRead s addr <;> simp [State.withOutside, State.push]
  | stop => cases h; simp [exec, execStop, State.withOutside, State.clearRunning]
  | load data => cases h; simp [exec, execLoad, State.withOutside, State.push]
  | add => cases h; simp [exec, execAdd, State.withOutside, State.combine, State.pop, State.setA]
  | and => cases h; simp [exec, execAnd, State.withOutside, State.combine, State.pop, State.setA]
  | or => cases h; simp [exec, execOr, State.withOutside, State.combine, State.pop, State.setA]
  | not => cases h; simp [exec, execNot, State.withOutside, State.setA]

end Sys2Proof.Machine
end

