-- ==== Sys2Proof/Laws/PerInstr.lean ====
section
/-! SUPPORT. Per-instruction facts about the encoding: the canonical word of every instruction carries its
opcode, one of 1 to 8 (R53, R58). -/

namespace Sys2Proof

/-- The upper nibble of a packed word is the opcode it was packed from (R58). -/
theorem opcodeField_pack (opcode data : Nibble) : opcodeField (pack opcode data) = opcode := by
  revert opcode data; decide

/-- The instruction's word has the instruction's opcode, and that opcode is defined. -/
def Laws.CanonicalOpcode.Statement (i : Instr) : Prop :=
  opcodeField (encode i) = opcodeOf i ∧ 1 ≤ (opcodeOf i).toNat ∧ (opcodeOf i).toNat ≤ 8

theorem Laws.CanonicalOpcode.stop : Laws.CanonicalOpcode.Statement .stop :=
  ⟨opcodeField_pack _ _, Nat.le_of_ble_eq_true rfl, Nat.le_of_ble_eq_true rfl⟩

theorem Laws.CanonicalOpcode.load (data : Nibble) : Laws.CanonicalOpcode.Statement (.load data) :=
  ⟨opcodeField_pack _ _, Nat.le_of_ble_eq_true rfl, Nat.le_of_ble_eq_true rfl⟩

theorem Laws.CanonicalOpcode.store (addr : Nat) : Laws.CanonicalOpcode.Statement (.store addr) :=
  ⟨opcodeField_pack _ _, Nat.le_of_ble_eq_true rfl, Nat.le_of_ble_eq_true rfl⟩

theorem Laws.CanonicalOpcode.fetch (addr : Nat) : Laws.CanonicalOpcode.Statement (.fetch addr) :=
  ⟨opcodeField_pack _ _, Nat.le_of_ble_eq_true rfl, Nat.le_of_ble_eq_true rfl⟩

theorem Laws.CanonicalOpcode.add : Laws.CanonicalOpcode.Statement .add :=
  ⟨opcodeField_pack _ _, Nat.le_of_ble_eq_true rfl, Nat.le_of_ble_eq_true rfl⟩

theorem Laws.CanonicalOpcode.and : Laws.CanonicalOpcode.Statement .and :=
  ⟨opcodeField_pack _ _, Nat.le_of_ble_eq_true rfl, Nat.le_of_ble_eq_true rfl⟩

theorem Laws.CanonicalOpcode.or : Laws.CanonicalOpcode.Statement .or :=
  ⟨opcodeField_pack _ _, Nat.le_of_ble_eq_true rfl, Nat.le_of_ble_eq_true rfl⟩

theorem Laws.CanonicalOpcode.not : Laws.CanonicalOpcode.Statement .not :=
  ⟨opcodeField_pack _ _, Nat.le_of_ble_eq_true rfl, Nat.le_of_ble_eq_true rfl⟩

end Sys2Proof
end

