-- ==== Sys2Proof/Laws/Step.lean ====
section
/-! SUPPORT. What a step is, case by case, and its inversion: everything a step that answers a next state can have done. -/

namespace Sys2Proof.Machine

/-! ### Which case applies -/

theorem step_of_active {s : State} {p : Program} (h : s.active = some p) : step s = executeTurn p s := by
  unfold step transition; rw [h]

theorem step_of_idle {s : State} (h : s.active = none) : step s = acceptCommand s := by
  unfold step transition; rw [h]

theorem acceptCommand_nil {s : State} (h : s.commands = []) : acceptCommand s = .next s := by
  unfold acceptCommand; rw [h]

theorem acceptCommand_execute {s : State} {p : Program} {rest : List Command} (h : s.commands = .execute p :: rest) :
    acceptCommand s = .next { s.beginRun with active := some p, commands := rest } := by
  unfold acceptCommand; rw [h]

theorem acceptCommand_step {s : State} {p : Program} {rest : List Command} (h : s.commands = .step p :: rest) :
    acceptCommand s = finish (stepCommand p { s with commands := rest }) := by
  unfold acceptCommand; rw [h]

theorem acceptCommand_state {s : State} {rest : List Command} (h : s.commands = .state :: rest) :
    acceptCommand s = finish (stateCommand { s with commands := rest }) := by
  unfold acceptCommand; rw [h]

theorem acceptCommand_clearState {s : State} {rest : List Command} (h : s.commands = .clearState :: rest) :
    acceptCommand s = finish (clearCommand { s with commands := rest }) := by
  unfold acceptCommand; rw [h]

/-! ### Inversion -/

/-- Everything a step can do: one constructor per case, with its conditions. -/
inductive StepCase (s : State) : State → Prop where
  /-- A cycle of an `execute` in progress runs an instruction. -/
  | turnRuns (p : Program) (w : Byte) (i : Instr) (t : State) :
      s.active = some p → s.running = true → fetchWord p s.pc = some w → decode w = .ok i →
      exec i s.advancePc = .next t → StepCase s t
  /-- A cycle of an `execute` in progress meets an illegal word. -/
  | turnFaults (p : Program) (w : Byte) (op : Nibble) :
      s.active = some p → s.running = true → fetchWord p s.pc = some w →
      decode w = .error (.unknownOpcode op) → StepCase s (s.advancePc.raise (.unknownOpcode op))
  /-- The loop test of an `execute` in progress fails. -/
  | turnEnds (p : Program) :
      s.active = some p → ¬ (s.running = true ∧ s.pc < p.length) → StepCase s (s.report .completed)
  /-- No command is given. -/
  | idles : s.active = none → s.commands = [] → StepCase s s
  /-- An `execute` begins. -/
  | executeBegins (p : Program) (rest : List Command) :
      s.active = none → s.commands = .execute p :: rest →
      StepCase s { s.beginRun with active := some p, commands := rest }
  /-- A `step` runs an instruction. -/
  | stepRuns (p : Program) (rest : List Command) (w : Byte) (i : Instr) (t : State) :
      s.active = none → s.commands = .step p :: rest → fetchWord p s.pc = some w → decode w = .ok i →
      exec i (State.advancePc { s with commands := rest }) = .next t → StepCase s (t.report .completed)
  /-- A `step` meets an illegal word. -/
  | stepFaults (p : Program) (rest : List Command) (w : Byte) (op : Nibble) :
      s.active = none → s.commands = .step p :: rest → fetchWord p s.pc = some w →
      decode w = .error (.unknownOpcode op) →
      StepCase s ((State.advancePc { s with commands := rest }).report (.fault (.unknownOpcode op)))
  /-- A `step` is refused. -/
  | stepRefused (p : Program) (rest : List Command) :
      s.active = none → s.commands = .step p :: rest → p.length ≤ s.pc →
      StepCase s (State.report { s with commands := rest } .noMoreInstructions)
  /-- A `state`. -/
  | snapshots (rest : List Command) :
      s.active = none → s.commands = .state :: rest →
      StepCase s (State.report { s with commands := rest } (.snapshot s.view))
  /-- A `clear_state`. -/
  | clears (rest : List Command) :
      s.active = none → s.commands = .clearState :: rest →
      StepCase s ((State.clearEngine { s with commands := rest }).report .completed)

theorem executeTurn_cases {p : Program} {s t : State} (ha : s.active = some p)
    (h : executeTurn p s = .next t) : StepCase s t := by
  unfold executeTurn at h
  cases hr : s.running with
  | false =>
    rw [hr] at h; cases h
    exact .turnEnds p ha (by simp [hr])
  | true =>
    cases hf : fetchWord p s.pc with
    | none =>
      rw [hr, hf] at h; cases h
      exact .turnEnds p ha fun hlt => absurd hlt.2 (Nat.not_lt.mpr (fetchWord_eq_none.mp hf))
    | some w =>
      rw [hr, hf] at h
      rcases cycle_cases w s with ⟨i, hd, hc⟩ | ⟨op, hd, hc⟩
      · cases he : exec i s.advancePc with
        | next u => simp only [hc, he] at h; cases h; exact .turnRuns p w i _ ha hr hf hd he
        | fault f => simp only [hc, he] at h; cases h
        | refused r => simp only [hc, he] at h; cases h
      · simp only [hc] at h; cases h
        exact .turnFaults p w op ha hr hf hd

theorem finish_stepCommand_cases {p : Program} {rest : List Command} {s t : State} (ha : s.active = none)
    (hcmd : s.commands = .step p :: rest)
    (h : finish (stepCommand p { s with commands := rest }) = .next t) : StepCase s t := by
  unfold stepCommand at h
  cases hf : fetchWord p s.pc with
  | none =>
    simp only [hf, finish] at h; cases h
    exact .stepRefused p rest ha hcmd (fetchWord_eq_none.mp hf)
  | some w =>
    simp only [hf] at h
    rcases cycle_cases w { s with commands := rest } with ⟨i, hd, hc⟩ | ⟨op, hd, hc⟩
    · cases he : exec i (State.advancePc { s with commands := rest }) with
      | next u => simp only [hc, he, finish] at h; cases h; exact .stepRuns p rest w i u ha hcmd hf hd he
      | fault f => simp only [hc, he, finish] at h; cases h
      | refused r => simp only [hc, he, finish] at h; cases h
    · simp only [hc, finish] at h; cases h
      exact .stepFaults p rest w op ha hcmd hf hd

/-- The inversion of `step`: invariants and whole-machine rules are case splits over it. -/
theorem step_cases {s t : State} (h : step s = .next t) : StepCase s t := by
  cases ha : s.active with
  | some p => exact executeTurn_cases ha (step_of_active ha ▸ h)
  | none =>
    rw [step_of_idle ha] at h
    cases hcmd : s.commands with
    | nil => rw [acceptCommand_nil hcmd] at h; cases h; exact .idles ha hcmd
    | cons c rest =>
      cases c with
      | execute p => rw [acceptCommand_execute hcmd] at h; cases h; exact .executeBegins p rest ha hcmd
      | step p => exact finish_stepCommand_cases ha hcmd (acceptCommand_step hcmd ▸ h)
      | state => rw [acceptCommand_state hcmd] at h; cases h; exact .snapshots rest ha hcmd
      | clearState => rw [acceptCommand_clearState hcmd] at h; cases h; exact .clears rest ha hcmd

/-! ### Runs -/

theorem run_succ {n : Nat} {s t : State} (h : step s = .next t) :
    Host.Core.run Sys2Proof.core (n + 1) s = Host.Core.run Sys2Proof.core n t := by
  have hcore : Sys2Proof.core.step s = .next t := h
  simp only [Host.Core.run, hcore]

/-- A property that every step keeps holds at the end of every run that starts with it. -/
theorem run_keeps {Inv : State → Prop} (hstep : ∀ s t, Inv s → step s = .next t → Inv t) :
    ∀ (n : Nat) (s t : State), Inv s → Host.Core.run Sys2Proof.core n s = .next t → Inv t
  | 0, s, t, hs, h => by cases h; exact hs
  | n + 1, s, t, hs, h => by
    cases hnext : step s with
    | next u => exact run_keeps hstep n u t (hstep s u hs hnext) (run_succ hnext ▸ h)
    | fault f =>
      have hcore : Sys2Proof.core.step s = .fault f := hnext
      simp only [Host.Core.run, hcore] at h
      cases h
    | refused r =>
      have hcore : Sys2Proof.core.step s = .refused r := hnext
      simp only [Host.Core.run, hcore] at h
      cases h

end Sys2Proof.Machine
end

