-- ==== Sys2Proof/Tests/Slice0.lean ====
section
/-! SUPPORT. Tests against the spec's own encodings and vectors (95_test_vectors.md), and a witness for the hypotheses of
every statement that has some. -/

namespace Sys2Proof.Machine

/-! ### Helpers -/

/-- Reset with the four registers given. -/
def chain (a b c d : Nibble) : State := { State.reset with a := a, b := b, c := c, d := d }

/-- Reset with commands given. -/
def given (commands : List Command) : State := { State.reset with commands := commands }

/-- The start memory of vectors M1 to M6: mem[4] = 11, mem[15] = 6. -/
def vectorMemory : Memory := [(4, 11), (15, 6)]

/-- The next state, if there is one. -/
def after : Host.Outcome State Fault Refusal → Option State
  | .next t => some t
  | .fault _ => none
  | .refused _ => none

/-- The four registers. -/
def regs (s : State) : Nibble × Nibble × Nibble × Nibble := (s.a, s.b, s.c, s.d)

/-! ### Well-formedness: each check refuses an ill-formed term -/

theorem test_store_address_16_is_ill_formed : (Instr.store 16).wellFormed = false := by decide

theorem test_fetch_address_16_is_ill_formed : (Instr.fetch 16).wellFormed = false := by decide

theorem test_addresses_15_are_well_formed :
    (Instr.store 15).wellFormed = true ∧ (Instr.fetch 15).wellFormed = true := by decide

/-! ### Decoding: words written out bit by bit from the table of R53, with the vectors E1 to E19 -/

theorem test_decode_stop : decode 0b00010000 = .ok .stop ∧ decode 0b00011111 = .ok .stop := by decide

theorem test_decode_load : decode 0b00100101 = .ok (.load 5) ∧ decode 0b00101111 = .ok (.load 15) := by decide

theorem test_decode_store : decode 0b00110000 = .ok (.store 0) ∧ decode 0b00111111 = .ok (.store 15) := by decide

theorem test_decode_fetch : decode 0b01000000 = .ok (.fetch 0) ∧ decode 0b01001111 = .ok (.fetch 15) := by decide

theorem test_decode_add : decode 0b01010000 = .ok .add ∧ decode 0b01010111 = .ok .add := by decide

theorem test_decode_and : decode 0b01100000 = .ok .and := by decide

theorem test_decode_or : decode 0b01110000 = .ok .or := by decide

theorem test_decode_not : decode 0b10000000 = .ok .not ∧ decode 0b10001111 = .ok .not := by decide

theorem test_decode_illegal :
    decode 0b00001111 = .error (.unknownOpcode 0) ∧ decode 0b10010000 = .error (.unknownOpcode 9) ∧
    decode 0b10100101 = .error (.unknownOpcode 10) ∧ decode 0b11111111 = .error (.unknownOpcode 15) := by decide

theorem test_table_word : decodeTableWord 8 0x34 = some (.store 4) ∧ decodeTableWord 8 0x90 = none ∧
    decodeTableWord 16 0x110 = none := by decide

/-! ### One instruction each -/

/-- Vector T2: STOP with the flag already down. -/
theorem test_stop_keeps_flag_down :
    (after (exec .stop { chain 1 2 3 4 with running := false })).map (fun t => (regs t, t.running)) =
      some ((1, 2, 3, 4), false) := by decide

/-- Vector L3. -/
theorem test_load_shifts : (after (exec (.load 7) (chain 1 2 3 4))).map regs = some (7, 1, 2, 3) := by decide

/-- Vector M2: the other cell survives. -/
theorem test_store_cell_15 :
    (after (exec (.store 15) { chain 9 1 2 3 with mem := vectorMemory })).map (fun t => (regs t, t.mem)) =
      some ((9, 1, 2, 3), [(4, 11), (15, 9)]) := by decide

/-- Vector M3: a stored 0 leaves no entry. -/
theorem test_store_zero_unlists :
    (after (exec (.store 4) { chain 0 1 2 3 with mem := vectorMemory })).map (fun t => t.mem) =
      some [(15, 6)] := by decide

/-- Vector M5. -/
theorem test_fetch_pushes_cell :
    (after (exec (.fetch 4) { chain 5 1 2 3 with mem := vectorMemory })).map (fun t => (regs t, t.mem)) =
      some ((11, 5, 1, 2), vectorMemory) := by decide

/-- Vector M4: a cell never stored to reads 0. -/
theorem test_fetch_unwritten_pushes_zero :
    (after (exec (.fetch 0) { chain 5 1 2 3 with mem := vectorMemory })).map regs = some (0, 5, 1, 2) := by decide

/-- Vectors M7 and M8: the guard of the primitives. -/
theorem test_guard_does_nothing :
    memWrite (chain 5 1 2 3) 16 9 = chain 5 1 2 3 ∧ memWrite (chain 5 1 2 3) 255 9 = chain 5 1 2 3 ∧
    memRead (chain 5 1 2 3) 16 = none ∧ after (exec (.fetch 16) (chain 5 1 2 3)) = some (chain 5 1 2 3) := by
  decide

/-- Vectors X2 and X3. -/
theorem test_add_wraps :
    (after (exec .add (chain 15 1 7 9))).map regs = some (0, 7, 9, 0) ∧
    (after (exec .add (chain 15 15 1 2))).map regs = some (14, 1, 2, 0) := by decide

/-- Vector X9. -/
theorem test_and : (after (exec .and (chain 12 10 3 7))).map regs = some (8, 3, 7, 0) := by decide

/-- Vector X14. -/
theorem test_or : (after (exec .or (chain 12 10 3 7))).map regs = some (14, 3, 7, 0) := by decide

/-- Vector X19: the chain does not move. -/
theorem test_not : (after (exec .not (chain 5 9 3 1))).map regs = some (10, 9, 3, 1) := by decide

/-! ### Commands: vectors of 95_test_vectors.md 2.7 -/

/-- Vector K2. -/
theorem test_step_of_empty_program :
    (after (step (given [.step []]))).map (fun t => t.results) = some [.noMoreInstructions] := by decide

/-- Vector K5: an illegal word under `step`. -/
theorem test_step_of_illegal_word :
    (after (step (given [.step [0x00]]))).map (fun t => (t.pc, t.running, t.results)) =
      some (1, true, [.fault (.unknownOpcode 0)]) := by decide

/-- Vector K7, the first transition: `execute` resets `pc` and `running` only. -/
theorem test_execute_begins :
    (after (step { chain 7 7 7 7 with mem := [(1, 1)], pc := 9, running := false,
                                       commands := [.execute [0x21]] })).map
      (fun t => (regs t, t.mem, t.pc, t.running)) = some ((7, 7, 7, 7), [(1, 1)], 0, true) := by decide

/-- Vector K8. -/
theorem test_clear_state :
    (after (step { chain 7 7 7 7 with pc := 9, running := false, commands := [.clearState] })) =
      some { State.reset with results := [.completed] } := by decide

/-- Vector K10: `step` after STOP. -/
theorem test_step_after_stop :
    (after (step { chain 5 0 0 0 with pc := 2, running := false,
                                      commands := [.step [0x25, 0x1F, 0x26]] })).map
      (fun t => (regs t, t.pc, t.running)) = some ((6, 5, 0, 0), 3, false) := by decide

/-- Vector K13. -/
theorem test_state_after_reset :
    (after (step (given [.state]))).map (fun t => t.results) =
      some [.snapshot ⟨0, 0, 0, 0, 0, [0, 0, 0, 0, 0, 0, 0, 0, 0, 0, 0, 0, 0, 0, 0, 0]⟩] := by decide

/-- The first instruction after reset is the word presented. -/
theorem test_presented_word_runs :
    (after (step (State.reset.withFetchWord 8 0x25))).map (fun t => (t.a, t.pc, t.results)) =
      some (5, 1, [.completed]) := by decide

/-! ### The assembler: vectors of 95_test_vectors.md 2.2 -/

/-- Vectors A1, A2, A10, A13. -/
theorem test_assemble_line :
    assemble "load 5" = .ok [0x25] ∧ assemble "  LOAD   5   " = .ok [0x25] ∧
    assemble "LOAD 5 6 7" = .ok [0x25] ∧ assemble "LOAD 3#c" = .ok [0x23] := by decide

/-- Vectors A3, A4, A5, A6. -/
theorem test_assemble_defaults :
    assemble "# only a comment" = .ok [] ∧ assemble "" = .ok [] ∧
    assemble "ADD" = .ok [0x50] ∧ assemble "ADD 7" = .ok [0x57] := by decide

/-- Vectors A7, A8, A9 and the example of R65. -/
theorem test_assemble_truncates :
    assemble "STORE 15" = .ok [0x3F] ∧ assemble "STORE 16" = .ok [0x30] ∧
    assemble "LOAD -1" = .ok [0x2F] ∧ assemble "LOAD 20" = .ok [0x24] := by decide

/-- Vectors A11 and A12: the one error that applies. -/
theorem test_assembler_errors :
    assemblerErrors "LOAD x".toList = [.malformedOperand ['x']] ∧
    assemblerErrors "NOP".toList = [.unknownInstruction ['N', 'O', 'P']] := by decide

/-! ### Witnesses: concrete data that meet a statement's hypotheses, one theorem a statement -/

/-- A program that stores 9 to cell 0, ready to be stepped. -/
def storing : State := { chain 9 0 0 0 with mem := vectorMemory, commands := [.step [0x30]] }

/-- An `execute` in progress at its last word, a STOP. -/
def stopping : State := { chain 1 2 3 4 with pc := 1, active := some [0x21, 0x10] }

/-- An `execute` in progress at an illegal word. -/
def faulting : State := { chain 5 0 0 0 with pc := 1, active := some [0x25, 0x90, 0x26] }

theorem witness_IllegalWordsAreRejected :
    opcodeField 0x0F = 0 ∧ 9 ≤ (opcodeField 0x90).toNat ∧ (opcodeField 0x10).toNat = 1 ∧
    (opcodeField 0x8F).toNat = 8 := by decide

theorem witness_DecodeOfEncodeIsTheInstruction :
    (Instr.store 15).wellFormed = true ∧ decode (encode (.store 15)) = .ok (.store 15) := by decide

theorem witness_DecodedInstructionIsWellFormed : decode 0x4F = .ok (.fetch 15) ∧ decode 0x5A = .ok .add := by decide

theorem witness_EveryStepKeepsCellsInRange :
    ∃ t, storing.CellsInRange ∧ step storing = .next t ∧ t.mem = [(0, 9), (4, 11), (15, 6)] := by
  refine ⟨_, ?_, rfl, by decide⟩
  unfold State.CellsInRange
  decide

theorem witness_EveryStepKeepsRunInRange : ∃ t, stopping.RunInRange ∧ step stopping = .next t ∧ t.pc = 2 := by
  refine ⟨_, fun p h => ?_, rfl, rfl⟩
  cases h
  decide

theorem witness_PcNeverOutgrowsItsRegister :
    ∃ t, 2 < 2 ^ 2 ∧ stopping.PcBounded 2 ∧ step stopping = .next t := by
  refine ⟨_, by decide, ⟨by decide, fun p h => ?_, fun c h => ?_⟩, rfl⟩
  · cases h
    decide
  · cases h

theorem witness_StopClearsRunningOnly :
    fetchWord [0x21, 0x10] stopping.pc = some 0x10 ∧ decode 0x10 = .ok .stop ∧
    stopping.active = some [0x21, 0x10] ∧ stopping.running = true ∧
    fetchWord [0x10] (given [.step [0x10]]).pc = some 0x10 ∧ (given [.step [0x10]]).active = none ∧
    (given [.step [0x10]]).commands = [.step [0x10]] := by decide

/-- The two clauses of STORE and of FETCH, at the addresses where they meet. -/
theorem witness_StoreWritesOneCell_FetchPushesCell :
    (after (exec (.store 15) (chain 5 1 2 3))).map (fun t => t.mem) = some [(15, 5)] ∧
    (after (exec (.store 16) (chain 5 1 2 3))).map (fun t => t.mem) = some [] ∧
    (after (exec (.fetch 15) (chain 5 1 2 3))).map regs = some (0, 5, 1, 2) ∧
    (after (exec (.fetch 16) (chain 5 1 2 3))).map regs = some (5, 1, 2, 3) := by decide

theorem witness_NonStoringInstructionsLeaveMemory :
    ∃ t, (∀ addr, storesTo addr (.load 3) = false) ∧ exec (.load 3) storing = .next t :=
  ⟨_, fun _ => rfl, rfl⟩

theorem witness_StoreFrame : ∃ t, exec (.store 4) storing = .next t ∧ t.mem = [(4, 9), (15, 6)] :=
  ⟨_, rfl, by decide⟩

theorem witness_OnlyStopClearsRunning : ∃ t, exec .stop storing = .next t ∧ t.running = false := ⟨_, rfl, rfl⟩

theorem witness_ChainMovesOnlyByPushAndPop :
    ∃ t, exec .or (chain 1 2 3 4) = .next t ∧ regs t = (3, 3, 4, 0) := ⟨_, rfl, by decide⟩

theorem witness_MemWriteWritesBelowSixteenOnly :
    memRead (memWrite (chain 0 0 0 0) 15 7) 15 = some 7 ∧ memWrite (chain 0 0 0 0) 16 7 = chain 0 0 0 0 ∧
    decode 0x3F = .ok (.store 15) := by decide

theorem witness_MemReadHasNoValueFromSixteenOn :
    memRead storing 15 = some 6 ∧ memRead storing 16 = none ∧ decode 0x4F = .ok (.fetch 15) := by decide

theorem witness_FetchGivesMostRecentStore :
    15 < 16 ∧ ∀ i ∈ [Instr.load 3, .store 14, .fetch 15, .add], storesTo 15 i = false := by decide

theorem witness_OnlyStoreAndClearChangeACell :
    (∃ t, step storing = .next t ∧ Memory.cell t.mem 0 ≠ Memory.cell storing.mem 0) ∧
    ∃ t, step { storing with commands := [.clearState] } = .next t ∧
      Memory.cell t.mem 4 ≠ Memory.cell storing.mem 4 :=
  ⟨⟨_, rfl, by decide⟩, ⟨_, rfl, by decide⟩⟩

theorem witness_PcMovesOnlyAsTheCycleAndCommandsSay :
    (storing.nextWord = some 0x30 ∧ faulting.nextWord = some 0x90 ∧
      (given [.execute [0x30]]).nextWord = none ∧ (given []).nextWord = none ∧
      (given [.step []]).nextWord = none) ∧ ∃ t, step storing = .next t ∧ t.pc = 1 := ⟨by decide, _, rfl, rfl⟩

theorem witness_RunningWrittenOnlyByStopExecuteAndClear :
    (∃ t, step stopping = .next t ∧ stopping.running = true ∧ t.running = false) ∧
    ∃ t, step { given [.execute []] with running := false } = .next t ∧ t.running = true :=
  ⟨⟨_, rfl, rfl, rfl⟩, ⟨_, rfl, rfl⟩⟩

/-- The clauses at `pc = len(P) - 1` and `pc = len(P)`, with a legal and an illegal word. -/
theorem witness_StepCommandRunsOneInstruction :
    storing.active = none ∧ storing.commands = [.step [0x30]] ∧ storing.pc < [(0x30 : Byte)].length ∧
    fetchWord [0x30] storing.pc = some 0x30 ∧ decode 0x30 = .ok (.store 0) ∧
    ([0x30] : Program).length ≤ { storing with pc := 1 }.pc ∧
    fetchWord [0xF3] State.reset.pc = some 0xF3 ∧ decode 0xF3 = .error (.unknownOpcode 15) := by decide

theorem witness_ExecuteTurnRunsDecodedInstruction :
    stopping.active = some [0x21, 0x10] ∧ stopping.running = true ∧
    fetchWord [0x21, 0x10] stopping.pc = some 0x10 ∧ decode 0x10 = .ok .stop := by decide

theorem witness_PresentedWordIsRunNext : decodeTableWord 8 0x8F = some .not := by decide

/-- The begin of an `execute`, and the loop test failing by the flag, failing by the end, and holding. -/
theorem witness_ExecuteLoopFollowsItsTest :
    ((given [.execute [0x21]]).active = none ∧ (given [.execute [0x21]]).commands = [.execute [0x21]]) ∧
    ¬ ({ stopping with running := false }.running = true ∧ stopping.pc < 2) ∧
    ¬ ({ stopping with pc := 2 }.running = true ∧ { stopping with pc := 2 }.pc < 2) ∧
    (stopping.running = true ∧ stopping.pc < 2 ∧ decode 0x10 = .ok .stop) ∧
    faulting.running = true ∧ faulting.pc < 3 ∧ decode 0x90 = .error (.unknownOpcode 9) := by decide

theorem witness_UnknownOpcodeAdvancesPcOnly :
    fetchWord [0x25, 0x90, 0x26] faulting.pc = some 0x90 ∧ 9 ≤ (opcodeField 0x90).toNat ∧
    faulting.active = some [0x25, 0x90, 0x26] ∧ faulting.running = true ∧
    fetchWord [0x00] (given [.step [0x00]]).pc = some 0x00 ∧ opcodeField 0x00 = 0 ∧
    (given [.step [0x00]]).active = none ∧ (given [.step [0x00]]).commands = [.step [0x00]] := by decide

theorem witness_StepResumesAfterIllegalWord :
    (given [.step [0x00, 0x24], .step [0x00, 0x24]]).active = none ∧
    fetchWord [0x00, 0x24] 0 = some 0x00 ∧ decode 0x00 = .error (.unknownOpcode 0) ∧
    fetchWord [0x00, 0x24] (0 + 1) = some 0x24 ∧ decode 0x24 = .ok (.load 4) := by decide

theorem witness_NoMoreInstructionsChangesNothing :
    ∃ t, (given [.step []]).active = none ∧ ([] : Program).length ≤ (given [.step []]).pc ∧
      step (given [.step []]) = .next t ∧ t.results = [] ++ [.noMoreInstructions] :=
  ⟨_, rfl, by decide, rfl, rfl⟩

theorem witness_StepIgnoresRunningFlag :
    storing.active = none ∧ storing.commands = .step [0x30] :: [] := by decide

theorem witness_StateCommandReturnsSnapshot :
    (given [.state]).active = none ∧ (given [.state]).commands = .state :: [] := by decide

theorem witness_ClearStateResetsEngine :
    { storing with commands := [.clearState] }.active = none ∧
    { storing with commands := [.clearState] }.commands = .clearState :: [] := by decide

theorem witness_IdleEngineExecutesNothing : State.reset.active = none ∧ State.reset.commands = [] := by decide

theorem witness_MachineRefinesWholeCommands :
    (given [.execute [0x21, 0x10], .state]).active = none ∧
    (given [.execute [0x21, 0x10], .state]).commands = .execute [0x21, 0x10] :: [.state] := by decide

theorem witness_IdleRunningFlagIsUnobservable : storing.active = none := by decide

theorem witness_SteppingEqualsExecutingWithoutStop :
    ∀ w ∈ ([0x21, 0x50, 0x90] : Program), decode w ≠ .ok .stop := by decide

theorem witness_AssemblerEmitsLegalWordsOnly_AssembledProgramNeverFaults :
    assemble "LOAD 2\nLOAD 15\nADD" = .ok [0x22, 0x2F, 0x50] ∧ (0x2F : Byte) ∈ ([0x22, 0x2F, 0x50] : Program) := by
  decide

theorem witness_AssemblerReportsAnApplicableError :
    assemblerErrors "STOP".toList = [] ∧ assemblerErrors "JUMP x".toList ≠ [] := by decide

theorem witness_DisassemblyAssemblesBack : disassemble 0x2F = some "LOAD 15" := by decide

end Sys2Proof.Machine
end

section
/-! SUPPORT. What an instruction leaves unchanged, and what a step does to the engine whatever the host's side:
the rules of 10_state.md. -/

namespace Sys2Proof.Machine

/-! ### Inversion of `exec` -/

/-- Everything an instruction can do: one constructor per instruction, two for FETCH (R31, R112). -/
inductive ExecCase (s : State) : Instr → State → Prop where
  | stop : ExecCase s .stop s.clearRunning
  | load (data : Nibble) : ExecCase s (.load data) (s.push data)
  | store (addr : Nat) : ExecCase s (.store addr) (memWrite s addr s.a)
  | fetchPushes (addr : Nat) (v : Nibble) : memRead s addr = some v → ExecCase s (.fetch addr) (s.push v)
  | fetchOutside (addr : Nat) : memRead s addr = none → ExecCase s (.fetch addr) s
  | add : ExecCase s .add (s.combine addNibbles)
  | and : ExecCase s .and (s.combine fun x y => x &&& y)
  | or : ExecCase s .or (s.combine fun x y => x ||| y)
  | not : ExecCase s .not (s.setA (~~~s.a))

theorem exec_cases {i : Instr} {s t : State} (h : exec i s = .next t) : ExecCase s i t := by
  cases i with
  | fetch addr =>
    obtain rfl : s.pushCell addr = t := Host.Outcome.next.inj h
    rcases s.pushCell_cases addr with ⟨v, hv, hpush⟩ | ⟨hnone, hskip⟩
    · exact hpush ▸ .fetchPushes addr v hv
    · exact hskip.symm ▸ .fetchOutside addr hnone
  | stop => cases h; exact .stop
  | load data => cases h; exact .load data
  | store addr => cases h; exact .store addr
  | add => cases h; exact .add
  | and => cases h; exact .and
  | or => cases h; exact .or
  | not => cases h; exact .not

/-! ### The frame of `exec` -/

/-- What `exec` leaves outside the registers and memory: everything but the flag that STOP clears. -/
theorem exec_eq_withOutside {i : Instr} {s t : State} (h : exec i s = .next t) :
    t = t.withOutside s.pc (s.running && decide (i ≠ .stop)) s.active s.commands s.results := by
  have hself : s.withOutside s.pc s.running s.active s.commands s.results = s := rfl
  have hout := exec_withOutside h s.pc s.running s.active s.commands s.results
  rw [hself, h] at hout
  exact Host.Outcome.next.inj hout

section
variable {i : Instr} {s t : State} (h : exec i s = .next t)
include h

theorem exec_pc : t.pc = s.pc := (congrArg State.pc (exec_eq_withOutside h) :)

theorem exec_running : t.running = (s.running && decide (i ≠ .stop)) :=
  (congrArg State.running (exec_eq_withOutside h) :)

theorem exec_active : t.active = s.active := (congrArg State.active (exec_eq_withOutside h) :)

theorem exec_commands : t.commands = s.commands := (congrArg State.commands (exec_eq_withOutside h) :)

theorem exec_results : t.results = s.results := (congrArg State.results (exec_eq_withOutside h) :)

/-- The memory list changes by the `MemWrite` of a STORE or not at all (R36). -/
theorem exec_mem : t.mem = s.mem ∨ ∃ addr, i = .store addr ∧ t.mem = (memWrite s addr s.a).mem := by
  cases exec_cases h with
  | store addr => exact .inr ⟨addr, rfl, rfl⟩
  | stop | load | fetchPushes | fetchOutside | add | and | or | not => exact .inl rfl

theorem exec_keeps_wf (hwf : Memory.wf s.mem) : Memory.wf t.mem := by
  rcases exec_mem h with hmem | ⟨addr, -, hmem⟩
  · rwa [hmem]
  · rw [hmem]
    exact memWrite_wf hwf

theorem eq_store_of_exec_changes_cell {k : Nat} (hk : Memory.cell t.mem k ≠ Memory.cell s.mem k) :
    i = .store k := by
  rcases exec_mem h with hmem | ⟨addr, rfl, hmem⟩
  · exact absurd (congrArg (Memory.cell · k) hmem) hk
  · rw [hmem, memWrite_cell] at hk
    by_cases hak : addr = k
    · rw [hak]
    · simp [hak] at hk

/-- `exec` carries any host's side through. -/
theorem exec_withHostSide (active : Option Program) (commands : List Command) (results : List Result) :
    exec i { s with active := active, commands := commands, results := results } =
      .next { t with active := active, commands := commands, results := results } := by
  have hout := exec_withOutside h s.pc s.running active commands results
  refine hout.trans ?_
  simp only [State.withOutside, exec_pc h, exec_running h]

end

/-! ### The word a step runs -/

theorem nextWord_of_active {s : State} {p : Program} (ha : s.active = some p) :
    s.nextWord = if s.running then fetchWord p s.pc else none := by
  unfold State.nextWord; rw [ha]

theorem nextWord_of_step {s : State} {p : Program} {rest : List Command} (ha : s.active = none)
    (hcmd : s.commands = .step p :: rest) : s.nextWord = fetchWord p s.pc := by
  unfold State.nextWord; rw [ha, hcmd]

theorem nextWord_of_running {s : State} {p : Program} {w : Byte} (ha : s.active = some p)
    (hr : s.running = true) (hf : fetchWord p s.pc = some w) : s.nextWord = some w := by
  rw [nextWord_of_active ha, if_pos hr, hf]

theorem nextWord_of_loop_end {s : State} {p : Program} (ha : s.active = some p)
    (hend : ¬ (s.running = true ∧ s.pc < p.length)) : s.nextWord = none := by
  rw [nextWord_of_active ha]
  by_cases hr : s.running = true
  · rw [if_pos hr]
    exact fetchWord_eq_none.mpr (Nat.not_lt.mp fun hlt => hend ⟨hr, hlt⟩)
  · exact if_neg hr

/-- An idle machine that takes no `step` runs no word. -/
theorem nextWord_of_no_step {s : State} (ha : s.active = none)
    (hcmd : ∀ p, s.commands.head? ≠ some (.step p)) : s.nextWord = none := by
  unfold State.nextWord
  rw [ha]
  cases hs : s.commands with
  | nil => rfl
  | cons c rest =>
    cases c with
    | step p => exact absurd (by rw [hs]; rfl) (hcmd p)
    | execute p => rfl
    | state => rfl
    | clearState => rfl

/-! ### What a step does to the engine -/

/-- The two states agree in the engine (R26), whatever the host's side. -/
structure State.SameEngine (s t : State) : Prop where
  a : t.a = s.a
  b : t.b = s.b
  c : t.c = s.c
  d : t.d = s.d
  mem : t.mem = s.mem
  pc : t.pc = s.pc
  running : t.running = s.running

theorem State.sameEngine_hostSide (s : State) (active : Option Program) (commands : List Command)
    (results : List Result) :
    s.SameEngine { s with active := active, commands := commands, results := results } :=
  ⟨rfl, rfl, rfl, rfl, rfl, rfl, rfl⟩

/-- The command taken resets `pc` and the flag: it is `clear_state` or `execute` (R15, R17). -/
def State.TakesReset (s : State) : Prop :=
  s.active = none ∧ (s.commands.head? = some .clearState ∨ ∃ p, s.commands.head? = some (.execute p))

/-- Everything a step can do to the engine, with the word it runs or the command it takes. -/
inductive EngineCase (s t : State) : Prop where
  /-- A word is run that is an instruction. -/
  | runs (w : Byte) (i : Instr) (u : State) : s.nextWord = some w → decode w = .ok i →
      exec i s.advancePc = .next u → u.SameEngine t → EngineCase s t
  /-- A word is run that is illegal. -/
  | faults (w : Byte) (op : Nibble) : s.nextWord = some w → decode w = .error (.unknownOpcode op) →
      s.advancePc.SameEngine t → EngineCase s t
  /-- An `execute` begins. -/
  | begins (p : Program) : s.nextWord = none → s.active = none → s.commands.head? = some (.execute p) →
      s.beginRun.SameEngine t → EngineCase s t
  /-- A `clear_state`. -/
  | clears : s.nextWord = none → s.active = none → s.commands.head? = some .clearState →
      s.clearEngine.SameEngine t → EngineCase s t
  /-- The engine stays as it is. -/
  | stays : s.nextWord = none → ¬ s.TakesReset → s.SameEngine t → EngineCase s t

/-- The inversion of `step` without the host's side. -/
theorem step_engineCase {s t : State} (h : step s = .next t) : EngineCase s t := by
  cases step_cases h with
  | turnRuns p w i _ ha hr hf hd he =>
    exact .runs w i t (nextWord_of_running ha hr hf) hd he (State.sameEngine_hostSide _ _ _ _)
  | turnFaults p w op ha hr hf hd =>
    exact .faults w op (nextWord_of_running ha hr hf) hd (State.sameEngine_hostSide _ _ _ _)
  | turnEnds p ha hend =>
    exact .stays (nextWord_of_loop_end ha hend) (by simp [State.TakesReset, ha])
      (State.sameEngine_hostSide _ _ _ _)
  | idles ha hcmd =>
    exact .stays (nextWord_of_no_step ha (by simp [hcmd])) (by simp [State.TakesReset, hcmd])
      (State.sameEngine_hostSide _ _ _ _)
  | executeBegins p rest ha hcmd =>
    exact .begins p (nextWord_of_no_step ha (by simp [hcmd])) ha (by simp [hcmd])
      (State.sameEngine_hostSide _ _ _ _)
  | stepRuns p rest w i u ha hcmd hf hd he =>
    have hcarried := exec_withHostSide he s.active s.commands s.results
    exact .runs w i _ ((nextWord_of_step ha hcmd).trans hf) hd hcarried (State.sameEngine_hostSide _ _ _ _)
  | stepFaults p rest w op ha hcmd hf hd =>
    exact .faults w op ((nextWord_of_step ha hcmd).trans hf) hd (State.sameEngine_hostSide _ _ _ _)
  | stepRefused p rest ha hcmd hlen =>
    have hend : fetchWord p s.pc = none := fetchWord_eq_none.mpr hlen
    exact .stays ((nextWord_of_step ha hcmd).trans hend) (by simp [State.TakesReset, hcmd])
      (State.sameEngine_hostSide _ _ _ _)
  | snapshots rest ha hcmd =>
    exact .stays (nextWord_of_no_step ha (by simp [hcmd])) (by simp [State.TakesReset, hcmd])
      (State.sameEngine_hostSide _ _ _ _)
  | clears rest ha hcmd =>
    exact .clears (nextWord_of_no_step ha (by simp [hcmd])) ha (by simp [hcmd])
      (State.sameEngine_hostSide _ _ _ _)

/-! ### The obligations of 10_state.md -/

/-- Settles O8: only a STORE and `clear_state` touch the list, and both keep it canonical. -/
theorem everyStepKeepsCellsInRange : Obligations.EveryStepKeepsCellsInRange := by
  intro s t hwf h
  unfold State.CellsInRange at hwf ⊢
  cases step_engineCase h with
  | runs w i u _ _ he hu =>
    rw [hu.mem]
    exact exec_keeps_wf he hwf
  | faults w op _ _ hs => rwa [hs.mem]
  | begins p _ _ _ hs => rwa [hs.mem]
  | clears _ _ _ hs => rw [hs.mem]; exact Memory.wf_nil
  | stays _ _ hs => rwa [hs.mem]

/-- Settles O28: of the five things a step does to the engine, three leave the memory list as it is. -/
theorem onlyStoreAndClearChangeACell : Obligations.OnlyStoreAndClearChangeACell := by
  intro s t addr h hne
  cases step_engineCase h with
  | runs w i u hw hd he hu =>
    rw [hu.mem] at hne
    exact .inl ⟨w, hw, eq_store_of_exec_changes_cell he hne ▸ hd⟩
  | faults w op _ _ hs => exact absurd (congrArg (Memory.cell · addr) hs.mem) hne
  | begins p _ _ _ hs => exact absurd (congrArg (Memory.cell · addr) hs.mem) hne
  | clears _ ha hcmd _ => exact .inr ⟨ha, hcmd⟩
  | stays _ _ hs => exact absurd (congrArg (Memory.cell · addr) hs.mem) hne

/-- Settles O21: the memory list itself is unchanged, and the rest is the frame of `exec`. -/
theorem nonStoringInstructionsLeaveMemory : Obligations.NonStoringInstructionsLeaveMemory := by
  intro i s t hns h
  refine ⟨fun k => ?_, exec_pc h, exec_active h, exec_commands h, exec_results h,
    fun hi => by simp [exec_running h, hi]⟩
  by_contra hne
  have hstore := hns k
  simp [eq_store_of_exec_changes_cell h hne, storesTo] at hstore

/-- Settles O23, as `exec_running`. -/
theorem onlyStopClearsRunning : Obligations.OnlyStopClearsRunning :=
  fun _ _ _ h => exec_running h

/-- Settles O24, instruction by instruction: no move, a push, or a pop. -/
theorem chainMovesOnlyByPushAndPop : Obligations.ChainMovesOnlyByPushAndPop := by
  intro i s t h
  cases exec_cases h with
  | stop => exact .inl ⟨rfl, rfl, rfl, .inl rfl⟩
  | store addr =>
    rw [memWrite_eq]
    exact .inl ⟨rfl, rfl, rfl, .inl rfl⟩
  | fetchOutside addr _ => exact .inl ⟨rfl, rfl, rfl, .inl rfl⟩
  | not => exact .inl ⟨rfl, rfl, rfl, .inr rfl⟩
  | load data => exact .inr (.inl ⟨rfl, rfl, rfl, .inl ⟨data, rfl, rfl⟩⟩)
  | fetchPushes addr v _ => exact .inr (.inl ⟨rfl, rfl, rfl, .inr ⟨addr, rfl⟩⟩)
  | add | and | or => exact .inr (.inr ⟨rfl, rfl, rfl, by simp⟩)

/-- Settles O29: `pc` moves by the cycle's increment, then by no instruction (R15 (a), (d)). -/
theorem pcMovesOnlyAsTheCycleAndCommandsSay : Obligations.PcMovesOnlyAsTheCycleAndCommandsSay := by
  intro s t h
  change (s.nextWord ≠ none → _) ∧ (s.nextWord = none → (s.TakesReset → _) ∧ (¬ s.TakesReset → _))
  cases step_engineCase h with
  | runs w i u hw _ he hu => simp [hw, hu.pc, exec_pc he]
  | faults w op hw _ hs => simp [hw, hs.pc]
  | begins p hw ha hcmd hs =>
    have hreset : s.TakesReset := ⟨ha, .inr ⟨p, hcmd⟩⟩
    simp [hw, hreset, hs.pc]
  | clears hw ha hcmd hs =>
    have hreset : s.TakesReset := ⟨ha, .inl hcmd⟩
    simp [hw, hreset, hs.pc]
  | stays hw hreset hs => simp [hw, hreset, hs.pc]

/-- Settles O30: an instruction only clears the flag, and the other writers of it are the two resets (R17). -/
theorem runningWrittenOnlyByStopExecuteAndClear : Obligations.RunningWrittenOnlyByStopExecuteAndClear := by
  intro s t h
  change _ ∧ (_ → _ → s.TakesReset)
  cases step_engineCase h with
  | runs w i u hw hd he hu =>
    rw [hu.running, exec_running he, State.advancePc_running]
    refine ⟨fun hs ht => ⟨w, hw, ?_⟩, fun hs ht => by simp [hs] at ht⟩
    have hstop : i = .stop := by simpa [hs] using ht
    exact hstop ▸ hd
  | faults w op _ _ hs => cases hr : s.running <;> simp [hs.running, hr]
  | begins p _ ha hcmd hs => exact ⟨by simp [hs.running], fun _ _ => ⟨ha, .inr ⟨p, hcmd⟩⟩⟩
  | clears _ ha hcmd hs => exact ⟨by simp [hs.running], fun _ _ => ⟨ha, .inl hcmd⟩⟩
  | stays _ _ hs => cases hr : s.running <;> simp [hs.running, hr]

/-- Settles O6: the reset list is empty, and an unlisted cell reads 0. -/
theorem resetLeavesSpecifiedState : Obligations.ResetLeavesSpecifiedState :=
  ⟨rfl, rfl, rfl, rfl, fun _ hk => memRead_of_lt hk, rfl, rfl⟩

end Sys2Proof.Machine
end

section
/-! SUPPORT. What `decode` can answer: the opcode map of R53 read backwards, and the canonical word of a decoded
instruction. -/

namespace Sys2Proof

/-- The lower nibble of a packed word is the data it was packed from (R58). -/
theorem dataField_pack (opcode data : Nibble) : dataField (pack opcode data) = data := by
  revert opcode data; decide

theorem opcodeField_encode (i : Instr) : opcodeField (encode i) = opcodeOf i := opcodeField_pack _ _

theorem dataField_encode (i : Instr) : dataField (encode i) = operandOf i := dataField_pack _ _

/-- What an instruction takes from the data field of the word it is decoded from: nothing, a value, or a cell
address (R52, R54). -/
inductive DataUse (data : Nibble) : Instr → Prop where
  | ignores (i : Instr) : i ∈ [Instr.stop, .add, .and, .or, .not] → DataUse data i
  | load : DataUse data (.load data)
  | store : DataUse data (.store data.toNat)
  | fetch : DataUse data (.fetch data.toNat)

/-- The inversion of `decode`: the word has the opcode of its instruction, which takes no data but the word's. -/
theorem decode_cases {w : Byte} {i : Instr} (h : decode w = .ok i) :
    opcodeField w = opcodeOf i ∧ DataUse (dataField w) i := by
  unfold decode at h
  split at h
  case h_2 hop => cases h; exact ⟨BitVec.eq_of_toNat_eq hop, .load⟩
  case h_3 hop => cases h; exact ⟨BitVec.eq_of_toNat_eq hop, .store⟩
  case h_4 hop => cases h; exact ⟨BitVec.eq_of_toNat_eq hop, .fetch⟩
  case h_1 hop | h_5 hop | h_6 hop | h_7 hop | h_8 hop =>
    cases h; exact ⟨BitVec.eq_of_toNat_eq hop, .ignores _ (by simp)⟩
  case h_9 => cases h

section
variable {data : Nibble} {i : Instr}

/-- A 4-bit data field is always one of the sixteen addresses (R31). -/
theorem DataUse.wellFormed (h : DataUse data i) : i.wellFormed = true := by
  cases h with
  | ignores _ hi => revert i; decide
  | load => rfl
  | store | fetch => exact decide_eq_true data.isLt

/-- The canonical word keeps a data field that is used, and has 0 in one that is not (R54). -/
theorem DataUse.operandOf (h : DataUse data i) :
    operandOf i = data ∨ (operandOf i = 0 ∧ i ∈ [Instr.stop, .add, .and, .or, .not]) := by
  cases h with
  | ignores _ hi => exact .inr ⟨by revert i; decide, hi⟩
  | load => exact .inl rfl
  | store | fetch => exact .inl ((BitVec.ofNat_toNat 4 data).trans (BitVec.setWidth_eq data))

end

theorem wellFormed_of_decode {w : Byte} {i : Instr} (h : decode w = .ok i) : i.wellFormed = true :=
  (decode_cases h).2.wellFormed

theorem lt_of_decode_store {w : Byte} {addr : Nat} (h : decode w = .ok (.store addr)) : addr < Config.memSize :=
  of_decide_eq_true (wellFormed_of_decode h)

theorem lt_of_decode_fetch {w : Byte} {addr : Nat} (h : decode w = .ok (.fetch addr)) : addr < Config.memSize :=
  of_decide_eq_true (wellFormed_of_decode h)

/-- Settles O5, from the inversion of `decode` and the fields of a packed word. -/
theorem decodedInstructionIsWellFormed : Obligations.DecodedInstructionIsWellFormed := by
  intro w i h
  obtain ⟨hop, huse⟩ := decode_cases h
  rw [opcodeField_encode, dataField_encode]
  exact ⟨huse.wellFormed, hop.symm, huse.operandOf⟩

end Sys2Proof
end

section
/-! SUPPORT. The data-memory primitives against each other and over sequences of instructions: the rules of
20_memory.md. -/

namespace Sys2Proof.Machine

/-! ### MemRead after MemWrite -/

/-- `MemRead` of an address depends on that cell alone. -/
theorem memRead_congr {s t : State} {k : Nat} (h : Memory.cell t.mem k = Memory.cell s.mem k) :
    memRead t k = memRead s k := by
  simp only [memRead, h]

theorem memRead_memWrite_same {addr : Nat} (s : State) (v : Nibble) (h : addr < Config.memSize) :
    memRead (memWrite s addr v) addr = some v := by
  rw [memRead_of_lt h, memWrite_cell, if_pos ⟨h, rfl⟩, nibble_setWidth]

theorem memRead_memWrite_of_ne {addr k : Nat} (s : State) (v : Nibble) (h : k ≠ addr) :
    memRead (memWrite s addr v) k = memRead s k := by
  apply memRead_congr
  rw [memWrite_cell, if_neg fun hk => h hk.2.symm]

/-! ### Single instructions -/

theorem exec_store (addr : Nat) (s : State) : exec (.store addr) s = .next (memWrite s addr s.a) := rfl

theorem exec_fetch (addr : Nat) (s : State) : exec (.fetch addr) s = .next (s.pushCell addr) := rfl

theorem State.pushCell_of_some {s : State} {addr : Nat} {v : Nibble} (h : memRead s addr = some v) :
    s.pushCell addr = s.push v := by
  unfold State.pushCell; rw [h]

theorem State.pushCell_of_none {s : State} {addr : Nat} (h : memRead s addr = none) : s.pushCell addr = s := by
  unfold State.pushCell; rw [h]

/-- Every instruction completes (R82). -/
theorem exec_completes (i : Instr) (s : State) : ∃ t, exec i s = .next t := by
  cases i <;> exact ⟨_, rfl⟩

/-- An instruction that does not store to a cell leaves what `MemRead` answers there (R36). -/
theorem exec_keeps_memRead {i : Instr} {s t : State} {k : Nat} (h : exec i s = .next t)
    (hns : storesTo k i = false) : memRead t k = memRead s k := by
  apply memRead_congr
  by_contra hne
  simp [eq_store_of_exec_changes_cell h hne, storesTo] at hns

/-! ### Sequences of instructions -/

theorem execAll_cons {i : Instr} {rest : List Instr} {s t : State} (h : exec i s = .next t) :
    execAll (i :: rest) s = execAll rest t := by
  simp only [execAll, h]

/-- A sequence that does not store to a cell completes and leaves what `MemRead` answers there. -/
theorem execAll_keeps_memRead {k : Nat} {is : List Instr} (hns : ∀ i ∈ is, storesTo k i = false) (s : State) :
    ∃ t, execAll is s = .next t ∧ memRead t k = memRead s k := by
  induction is generalizing s with
  | nil => exact ⟨s, rfl, rfl⟩
  | cons i rest ih =>
    obtain ⟨hi, hrest⟩ := List.forall_mem_cons.mp hns
    obtain ⟨t, ht⟩ := exec_completes i s
    obtain ⟨u, hu, hread⟩ := ih hrest t
    exact ⟨u, (execAll_cons ht).trans hu, hread.trans (exec_keeps_memRead ht hi)⟩

/-- A FETCH after such a sequence gives the value that the cell had before it. -/
theorem execAll_then_fetch {addr : Nat} {v : Nibble} {is : List Instr} {s : State}
    (hns : ∀ i ∈ is, storesTo addr i = false) (hread : memRead s addr = some v) :
    ∃ t u, execAll is s = .next t ∧ exec (.fetch addr) t = .next u ∧ u.a = v := by
  obtain ⟨t, ht, hkeep⟩ := execAll_keeps_memRead hns s
  have hpush : t.pushCell addr = t.push v := State.pushCell_of_some (hkeep.trans hread)
  exact ⟨t, t.pushCell addr, ht, exec_fetch addr t, by rw [hpush, State.push_a]⟩

/-! ### The obligations of 20_memory.md -/

/-- Settles O27: the cell holds the stored value, or reset's 0, before the sequence, which keeps it until the FETCH. -/
theorem fetchGivesMostRecentStore : Obligations.FetchGivesMostRecentStore := by
  intro addr between haddr hns
  refine ⟨fun s => ?_, execAll_then_fetch hns (memRead_of_lt haddr)⟩
  rw [execAll_cons (exec_store addr s)]
  exact execAll_then_fetch hns (memRead_memWrite_same s s.a haddr)

/-- Settles O25, from the read-after-write rules and the address range of a decoded STORE. -/
theorem memWriteWritesBelowSixteenOnly : Obligations.MemWriteWritesBelowSixteenOnly := by
  intro s addr v
  refine ⟨fun hlt => ⟨?_, fun k hk => ?_, ?_⟩, fun hge => ?_, fun w hw => ?_⟩
  · exact memRead_memWrite_same s v hlt
  · exact memRead_memWrite_of_ne s v hk
  · exact memWrite_eq s addr v
  · exact memWrite_of_ge hge
  · exact lt_of_decode_store hw

/-- Settles O26: below 16 the cell is narrowed to its low four bits, from 16 on FETCH has no value to push. -/
theorem memReadHasNoValueFromSixteenOn : Obligations.MemReadHasNoValueFromSixteenOn := by
  intro s addr
  refine ⟨fun hlt => ⟨_, memRead_of_lt hlt, BitVec.toNat_setWidth _ _⟩, fun hge => ?_, fun w hw => ?_⟩
  · have hnone : memRead s addr = none := memRead_of_ge hge
    exact ⟨hnone, by rw [exec_fetch, State.pushCell_of_none hnone]⟩
  · exact lt_of_decode_fetch hw

end Sys2Proof.Machine
end

section
/-! SUPPORT. The encoding, both ways: packing against the fields, and exactly which words and opcodes decode
(30_encoding.md Part 1). -/

namespace Sys2Proof

/-! ### Packing -/

/-- Every word is packed from its own fields (R51). -/
theorem pack_fields (w : Byte) : pack (opcodeField w) (dataField w) = w :=
  (BitVec.extractLsb'_append_extractLsb'_eq_extractLsb' rfl).trans BitVec.extractLsb'_eq_self

theorem pack_toNat_eq_or (opcode data : Nibble) : (pack opcode data).toNat = opcode.toNat <<< 4 ||| data.toNat :=
  BitVec.toNat_append opcode data

/-- The fields do not overlap, so the `|` of R58 is a sum. -/
theorem pack_toNat_eq_add (opcode data : Nibble) : (pack opcode data).toNat = 16 * opcode.toNat + data.toNat := by
  rw [pack_toNat_eq_or, ← Nat.shiftLeft_add_eq_or_of_lt data.isLt, Nat.shiftLeft_eq, Nat.mul_comm]

/-- The four-bit value of a number is the number masked (R58). -/
theorem nibble_ofNat_toNat (n : Nat) : (BitVec.ofNat 4 n).toNat = n &&& 15 :=
  (BitVec.toNat_ofNat n 4).trans (Nat.and_two_pow_sub_one_eq_mod n 4).symm

/-! ### Which words decode -/

theorem decode_of_ignored_data {w : Byte} {i : Instr} (hop : opcodeField w = opcodeOf i)
    (hi : i ∈ [Instr.stop, .add, .and, .or, .not]) : decode w = .ok i := by
  simp only [List.mem_cons, List.not_mem_nil, or_false] at hi
  rcases hi with rfl | rfl | rfl | rfl | rfl <;> simp [decode, hop, opcodeOf]

/-- `decode` exactly: the word has the opcode of the instruction, which takes its data from the word. -/
theorem decode_eq_ok_iff {w : Byte} {i : Instr} :
    decode w = .ok i ↔ opcodeField w = opcodeOf i ∧ DataUse (dataField w) i := by
  refine ⟨decode_cases, fun ⟨hop, huse⟩ => ?_⟩
  cases huse with
  | ignores _ hi => exact decode_of_ignored_data hop hi
  | load | store | fetch => simp [decode, hop, opcodeOf]

/-- A well-formed instruction takes from the data field just what its canonical word holds there. -/
theorem dataUse_operandOf {i : Instr} (h : i.wellFormed = true) : DataUse (operandOf i) i := by
  have haddr {addr : Nat} (hlt : addr < 16) : (BitVec.ofNat 4 addr).toNat = addr := by
    rw [BitVec.toNat_ofNat, Nat.mod_eq_of_lt hlt]
  cases i with
  | load data => exact .load
  | store addr =>
    have hstore := DataUse.store (data := operandOf (.store addr))
    rwa [operandOf, haddr (of_decide_eq_true h)] at hstore
  | fetch addr =>
    have hfetch := DataUse.fetch (data := operandOf (.fetch addr))
    rwa [operandOf, haddr (of_decide_eq_true h)] at hfetch
  | stop | add | and | or | not => exact .ignores _ (by decide)

/-- The opcode map has no opcode but 1 to 8 (R53). -/
theorem opcodeOf_range (i : Instr) : 1 ≤ (opcodeOf i).toNat ∧ (opcodeOf i).toNat ≤ 8 := by
  cases i with
  | stop => exact Laws.CanonicalOpcode.stop.2
  | load data => exact (Laws.CanonicalOpcode.load data).2
  | store addr => exact (Laws.CanonicalOpcode.store addr).2
  | fetch addr => exact (Laws.CanonicalOpcode.fetch addr).2
  | add => exact Laws.CanonicalOpcode.add.2
  | and => exact Laws.CanonicalOpcode.and.2
  | or => exact Laws.CanonicalOpcode.or.2
  | not => exact Laws.CanonicalOpcode.not.2

/-- The words that are instructions are those of opcode 1 to 8 (R53, R55). -/
theorem exists_decode_eq_ok_iff {w : Byte} :
    (∃ i, decode w = .ok i) ↔ 1 ≤ (opcodeField w).toNat ∧ (opcodeField w).toNat ≤ 8 := by
  refine ⟨fun ⟨i, h⟩ => (decode_cases h).1 ▸ opcodeOf_range i, fun ⟨hge, hle⟩ => ?_⟩
  unfold decode
  interval_cases (opcodeField w).toNat <;> exact ⟨_, rfl⟩

/-- The payload of the decoder's error is the word's opcode (R55). -/
theorem decode_error {w : Byte} {e : DecodeError} (h : decode w = .error e) :
    e = .unknownOpcode (opcodeField w) := by
  unfold decode at h
  split at h <;> cases h
  rfl

/-! ### The obligations of 30_encoding.md Part 1 -/

/-- Settles O4: the fields of the canonical word are the instruction's own, and they decode to it. -/
theorem decodeOfEncodeIsTheInstruction : Obligations.DecodeOfEncodeIsTheInstruction := by
  intro i h
  rw [decode_eq_ok_iff, opcodeField_encode, dataField_encode]
  exact ⟨rfl, dataUse_operandOf h⟩

/-- Settles O1, from the laws of `pack` and its fields. -/
theorem packIsShiftOrAndFieldsInvertIt : Obligations.PackIsShiftOrAndFieldsInvertIt := by
  refine ⟨fun opcode data => ?_, rfl, fun opcode data => ?_, fun w => ⟨pack_fields w, ?_⟩⟩
  · rw [pack_toNat_eq_or, nibble_ofNat_toNat, nibble_ofNat_toNat]
  · exact ⟨opcodeField_pack opcode data, dataField_pack opcode data⟩
  · rw [← pack_toNat_eq_add, pack_fields]

/-- Settles O3: the words that decode are those of opcode 1 to 8. -/
theorem illegalWordsAreRejected : Obligations.IllegalWordsAreRejected := by
  refine fun w => ⟨fun hill => ?_, fun hleg => ?_⟩
  · cases hd : decode w with
    | error e => rw [decode_error hd]
    | ok i =>
      obtain ⟨hge, hle⟩ := exists_decode_eq_ok_iff.mp ⟨i, hd⟩
      rcases hill with hzero | hnine
      · simp [hzero] at hge
      · omega
  · obtain ⟨i, hd⟩ := exists_decode_eq_ok_iff.mpr hleg
    rw [hd]
    rfl

end Sys2Proof
end

section
/-! SUPPORT. The assembler: what it answers, that its words are legal, and what an `execute` of legal words does
(30_encoding.md Part 2). -/

namespace Sys2Proof.Machine

/-! ### The answer -/

theorem assemble_of_no_errors {source : String} (h : assemblerErrors source.toList = []) :
    assemble source = .ok (assembledWords source.toList) := by
  unfold assemble
  rw [h]

/-- An index reduced modulo the number of errors picks one of them, whatever the free choice (log entry 11). -/
theorem assemble_of_errors {source : String} (h : assemblerErrors source.toList ≠ []) :
    ∃ e ∈ assemblerErrors source.toList, assemble source = .error e := by
  unfold assemble
  cases herr : assemblerErrors source.toList with
  | nil => exact absurd herr h
  | cons e more =>
    have hlt : Config.assemblerErrorChoice source.toList % (e :: more).length < (e :: more).length :=
      Nat.mod_lt _ (Nat.succ_pos _)
    refine ⟨_, List.getElem_mem hlt, ?_⟩
    simp only [List.getD_eq_getElem _ _ hlt]

theorem assemble_eq_ok {source : String} {p : Program} (h : assemble source = .ok p) :
    p = assembledWords source.toList := by
  by_cases herr : assemblerErrors source.toList = []
  · exact Except.ok.inj (h.symm.trans (assemble_of_no_errors herr))
  · obtain ⟨e, -, he⟩ := assemble_of_errors herr
    cases h.symm.trans he

/-! ### The words -/

/-- The table of R63 holds no opcode but 1 to 8. -/
theorem mnemonicOpcode_range {token : List Char} {opcode : Nibble} (h : mnemonicOpcode token = some opcode) :
    1 ≤ opcode.toNat ∧ opcode.toNat ≤ 8 := by
  have htable : ∀ e ∈ mnemonicTable, 1 ≤ e.2.toNat ∧ e.2.toNat ≤ 8 := by decide
  obtain ⟨before, after, heq, -⟩ := List.lookup_eq_some_iff.mp h
  exact htable (token.map Char.toUpper, opcode) (by simp [heq])

/-- The word of a line is packed from the opcode of a mnemonic (R62, R63). -/
theorem assembleLine_eq_ok {line : List Char} {w : Byte} (h : assembleLine line = some (.ok w)) :
    ∃ token opcode data, mnemonicOpcode token = some opcode ∧ w = pack opcode data := by
  unfold assembleLine at h
  split at h
  · cases h
  · split at h <;> cases h
    case h_1 hop _ => exact ⟨_, _, _, hop, rfl⟩

theorem assembleLine_legal {line : List Char} {w : Byte} (h : assembleLine line = some (.ok w)) :
    ∃ i, decode w = .ok i := by
  obtain ⟨token, opcode, data, hop, rfl⟩ := assembleLine_eq_ok h
  rw [exists_decode_eq_ok_iff, opcodeField_pack]
  exact mnemonicOpcode_range hop

/-- Every word of the output is the word of a line. -/
theorem mem_assembledWords {text : List Char} {w : Byte} (h : w ∈ assembledWords text) :
    ∃ line ∈ linesOf text, assembleLine line = some (.ok w) := by
  obtain ⟨answer, hanswer, hw⟩ := List.mem_flatMap.mp h
  obtain ⟨line, hline, hasm⟩ := List.mem_filterMap.mp hanswer
  cases answer with
  | ok v => exact ⟨line, hline, List.mem_singleton.mp hw ▸ hasm⟩
  | error errors => cases hw

theorem assemble_legal {source : String} {p : Program} (h : assemble source = .ok p) :
    ∀ w ∈ p, ∃ i, decode w = .ok i := by
  intro w hw
  rw [assemble_eq_ok h] at hw
  obtain ⟨line, -, hline⟩ := mem_assembledWords hw
  exact assembleLine_legal hline

/-! ### Executing legal words -/

theorem executeLoop_of_not_running {s : State} (fuel : Nat) (p : Program) (h : s.running = false) :
    executeLoop fuel p s = .next (s, .completed) := by
  cases fuel <;> simp [executeLoop, h]

theorem executeLoop_of_end {s : State} {p : Program} (fuel : Nat) (h : fetchWord p s.pc = none) :
    executeLoop fuel p s = .next (s, .completed) := by
  cases fuel <;> cases hr : s.running <;> simp [executeLoop, h, hr]

theorem executeLoop_of_cycle {s t : State} {p : Program} {w : Byte} (fuel : Nat) (hr : s.running = true)
    (hf : fetchWord p s.pc = some w) (hc : cycle w s = .next (t, none)) :
    executeLoop (fuel + 1) p s = executeLoop fuel p t := by
  simp only [executeLoop, hr, hf, hc]

/-- The loop over legal words ends with no error, by induction on the cycles left. -/
theorem executeLoop_completes {p : Program} (hlegal : ∀ w ∈ p, ∃ i, decode w = .ok i) (fuel : Nat) (s : State) :
    ∃ t, executeLoop fuel p s = .next (t, .completed) := by
  induction fuel generalizing s with
  | zero => exact ⟨s, rfl⟩
  | succ fuel ih =>
    cases hr : s.running with
    | false => exact ⟨s, executeLoop_of_not_running _ p hr⟩
    | true =>
      cases hf : fetchWord p s.pc with
      | none => exact ⟨s, executeLoop_of_end _ hf⟩
      | some w =>
        obtain ⟨i, hd⟩ := hlegal w (List.mem_of_getElem? hf)
        obtain ⟨u, hu⟩ := exec_completes i s.advancePc
        rw [executeLoop_of_cycle fuel hr hf (cycle_of_ok hd hu)]
        exact ih u

/-! ### A text of one line -/

theorem linesOf_of_no_newline {text : List Char} (h : '\n' ∉ text) : linesOf text = [text] := by
  induction text with
  | nil => rfl
  | cons ch rest ih =>
    obtain ⟨hch, hrest⟩ := not_or.mp (List.mem_cons.not.mp h)
    simp [linesOf, ih hrest, Ne.symm hch]

theorem assemble_of_line {source : String} {w : Byte} (hline : '\n' ∉ source.toList)
    (h : assembleLine source.toList = some (.ok w)) : assemble source = .ok [w] := by
  have herrors : assemblerErrors source.toList = [] := by
    simp [assemblerErrors, linesOf_of_no_newline hline, h]
  rw [assemble_of_no_errors herrors]
  simp [assembledWords, linesOf_of_no_newline hline, h]

/-! ### The texts of R70 -/

/-- The beginning of the text of a word with decimal data, and the word's opcode (R70). -/
def decimalTexts : List (String × Nibble) := [("LOAD ", 2), ("STORE ", 3), ("FETCH ", 4)]

/-- The text of a word with data 0 that is written bare, and the word's opcode (R70). -/
def bareTexts : List (String × Nibble) := [("STOP", 1), ("ADD", 5), ("AND", 6), ("OR", 7), ("NOT", 8)]

/-- The inversion of `disassemble`: the two ways of writing a word. -/
theorem disassemble_cases {w : Byte} {text : String} (h : disassemble w = some text) :
    (∃ start, (start, opcodeField w) ∈ decimalTexts ∧ text = start ++ String.ofList (decimalOf (dataField w))) ∨
      ((text, opcodeField w) ∈ bareTexts ∧ dataField w = 0) := by
  unfold disassemble at h
  cases hd : decode w with
  | error e => rw [hd] at h; cases h
  | ok i =>
    rw [hd] at h
    rw [(decode_cases hd).1]
    cases i with
    | load | store | fetch =>
      cases h
      exact .inl ⟨_, by simp [decimalTexts, opcodeOf], rfl⟩
    | stop | add | and | or | not =>
      obtain ⟨hdata, htext⟩ := Option.ite_none_right_eq_some.mp h
      cases htext
      exact .inr ⟨by simp [bareTexts, opcodeOf], hdata⟩

/-- The line of a word with decimal data assembles to that word, for each of the 3 × 16 words. -/
theorem assembleLine_decimalTexts : ∀ e ∈ decimalTexts, ∀ data : Nibble,
    '\n' ∉ e.1.toList ++ decimalOf data ∧
      assembleLine (e.1.toList ++ decimalOf data) = some (.ok (pack e.2 data)) := by decide

/-- The line of a word written bare assembles to that word: an absent operand is 0 (R66). -/
theorem assembleLine_bareTexts : ∀ e ∈ bareTexts,
    '\n' ∉ e.1.toList ∧ assembleLine e.1.toList = some (.ok (pack e.2 0)) := by decide

/-! ### The obligations of 30_encoding.md Part 2 -/

/-- Settles O54: an assembled program holds legal words only, and the loop over them meets no error. -/
theorem assembledProgramNeverFaults : Obligations.AssembledProgramNeverFaults :=
  fun _ p s h => executeLoop_completes (assemble_legal h) p.length s.beginRun

/-- Settles O50: a word is packed from an opcode of the table, and those are the legal ones. -/
theorem assemblerEmitsLegalWordsOnly : Obligations.AssemblerEmitsLegalWordsOnly :=
  fun _ _ h => assemble_legal h

/-- Settles O52, by the two cases of `assemble`. -/
theorem assemblerReportsAnApplicableError : Obligations.AssemblerReportsAnApplicableError :=
  fun _ => ⟨assemble_of_no_errors, assemble_of_errors⟩

/-- Settles O49: a fixed text. -/
theorem assemblerWorkedExample : Obligations.AssemblerWorkedExample := by
  unfold Obligations.AssemblerWorkedExample
  decide

/-- Settles O53: each of the two ways of writing a word is one line, which assembles to the word of those fields. -/
theorem disassemblyAssemblesBack : Obligations.DisassemblyAssemblesBack := by
  intro w text h
  rw [← pack_fields w]
  rcases disassemble_cases h with ⟨start, hstart, rfl⟩ | ⟨hbare, hdata⟩
  · obtain ⟨hline, hword⟩ := assembleLine_decimalTexts _ hstart (dataField w)
    apply assemble_of_line
    · rwa [String.toList_append, String.toList_ofList]
    · rwa [String.toList_append, String.toList_ofList]
  · obtain ⟨hline, hword⟩ := assembleLine_bareTexts _ hbare
    rw [hdata]
    exact assemble_of_line hline hword

end Sys2Proof.Machine
end

section
/-! SUPPORT. What the flag and `pc` are to an instruction, and what each command and each transition does in each of its
cases (40_engine_cycle.md section 3). -/

namespace Sys2Proof.Machine

/-! ### What `exec` makes of a changed flag or `pc` -/

/-- The state with another flag. -/
def State.withRunning (s : State) (b : Bool) : State := { s with running := b }

/-- The flag is no input of an instruction, and only STOP writes it (R17). -/
theorem exec_withRunning {i : Instr} {s t : State} (h : exec i s = .next t) (b : Bool) :
    exec i (s.withRunning b) = .next (t.withRunning (b && decide (i ≠ .stop))) := by
  refine (exec_withOutside h s.pc b s.active s.commands s.results).trans ?_
  rw [← exec_pc h, ← exec_active h, ← exec_commands h, ← exec_results h]
  rfl

/-- The state as the loop of an `execute` meets it at index `k`: the flag up, `pc` at `k`. -/
def State.runningAt (s : State) (k : Nat) : State := { s with pc := k, running := true }

@[simp] theorem State.runningAt_pc (s : State) (k : Nat) : (s.runningAt k).pc = k := rfl
@[simp] theorem State.runningAt_running (s : State) (k : Nat) : (s.runningAt k).running = true := rfl

theorem exec_runningAt {i : Instr} {s t : State} (h : exec i s = .next t) (hi : i ≠ .stop) (k : Nat) :
    exec i (s.runningAt k) = .next (t.runningAt k) := by
  refine (exec_withOutside h k true s.active s.commands s.results).trans ?_
  rw [← exec_active h, ← exec_commands h, ← exec_results h, decide_eq_true hi]
  rfl

/-- A report to an idle machine ends no command but adds its result. -/
theorem State.report_of_idle {s : State} (ha : s.active = none) (r : Result) :
    s.report r = { s with results := s.results ++ [r] } := by
  rw [State.report, ← ha]

/-! ### One cycle, as the commands see it -/

/-- A word is an instruction or carries an unknown opcode; there is no third case (R55). -/
theorem decode_ok_or_unknown (w : Byte) :
    (∃ i, decode w = .ok i) ∨ ∃ op, decode w = .error (.unknownOpcode op) := by
  cases hd : decode w with
  | ok i => exact .inl ⟨i, rfl⟩
  | error e => obtain ⟨op⟩ := e; exact .inr ⟨op, rfl⟩

theorem exists_fetchWord {p : Program} {k : Nat} (h : k < p.length) : ∃ w, fetchWord p k = some w :=
  ⟨p[k], List.getElem?_eq_getElem h⟩

section
variable {p : Program} {s : State}

theorem stepCommand_of_end (h : p.length ≤ s.pc) : stepCommand p s = .next (s, .noMoreInstructions) := by
  simp only [stepCommand, fetchWord_eq_none.mpr h]

theorem executeTurn_of_end (h : ¬ (s.running = true ∧ s.pc < p.length)) :
    executeTurn p s = .next (s.report .completed) := by
  unfold executeTurn
  cases hr : s.running with
  | false => rfl
  | true =>
    have hf : fetchWord p s.pc = none := fetchWord_eq_none.mpr (Nat.not_lt.mp fun hlt => h ⟨hr, hlt⟩)
    rw [hf]

theorem executeLoop_of_test_fails (fuel : Nat) (h : ¬ (s.running = true ∧ s.pc < p.length)) :
    executeLoop fuel p s = .next (s, .completed) := by
  cases hr : s.running with
  | false => exact executeLoop_of_not_running fuel p hr
  | true => exact executeLoop_of_end fuel (fetchWord_eq_none.mpr (Nat.not_lt.mp fun hlt => h ⟨hr, hlt⟩))

section
variable {w : Byte} (hf : fetchWord p s.pc = some w)
include hf

theorem stepCommand_of_ok {i : Instr} {t : State} (hd : decode w = .ok i) (he : exec i s.advancePc = .next t) :
    stepCommand p s = .next (t, .completed) := by
  simp only [stepCommand, hf, cycle_of_ok hd he]

theorem stepCommand_of_error {op : Nibble} (hd : decode w = .error (.unknownOpcode op)) :
    stepCommand p s = .next (s.advancePc, .fault (.unknownOpcode op)) := by
  simp only [stepCommand, hf, cycle_of_error hd]

theorem executeTurn_of_ok {i : Instr} (hr : s.running = true) (hd : decode w = .ok i) :
    executeTurn p s = exec i s.advancePc := by
  obtain ⟨t, he⟩ := exec_completes i s.advancePc
  simp only [executeTurn, hr, hf, cycle_of_ok hd he, he]

theorem executeTurn_of_error {op : Nibble} (hr : s.running = true) (hd : decode w = .error (.unknownOpcode op)) :
    executeTurn p s = .next (s.advancePc.report (.fault (.unknownOpcode op))) := by
  simp only [executeTurn, hr, hf, cycle_of_error hd, State.raise]

theorem executeLoop_of_error {op : Nibble} (fuel : Nat) (hr : s.running = true)
    (hd : decode w = .error (.unknownOpcode op)) :
    executeLoop (fuel + 1) p s = .next (s.advancePc, .fault (.unknownOpcode op)) := by
  simp only [executeLoop, hr, hf, cycle_of_error hd]

end

/-- The three things a `step(P)` can do: run an instruction, meet an illegal word, find no word (R84). -/
theorem stepCommand_cases (p : Program) (s : State) :
    (∃ w i t, fetchWord p s.pc = some w ∧ decode w = .ok i ∧ exec i s.advancePc = .next t ∧
        stepCommand p s = .next (t, .completed)) ∨
      (∃ w op, fetchWord p s.pc = some w ∧ decode w = .error (.unknownOpcode op) ∧
        stepCommand p s = .next (s.advancePc, .fault (.unknownOpcode op))) ∨
      (p.length ≤ s.pc ∧ stepCommand p s = .next (s, .noMoreInstructions)) := by
  rcases Nat.lt_or_ge s.pc p.length with hlt | hge
  · obtain ⟨w, hf⟩ := exists_fetchWord hlt
    rcases decode_ok_or_unknown w with ⟨i, hd⟩ | ⟨op, hd⟩
    · obtain ⟨t, he⟩ := exec_completes i s.advancePc
      exact .inl ⟨w, i, t, hf, hd, he, stepCommand_of_ok hf hd he⟩
    · exact .inr (.inl ⟨w, op, hf, hd, stepCommand_of_error hf hd⟩)
  · exact .inr (.inr ⟨hge, stepCommand_of_end hge⟩)

theorem stepCommand_completes (p : Program) (s : State) : ∃ t r, stepCommand p s = .next (t, r) := by
  rcases stepCommand_cases p s with ⟨_, _, t, _, _, _, h⟩ | ⟨_, _, _, _, h⟩ | ⟨_, h⟩
  · exact ⟨t, _, h⟩
  · exact ⟨_, _, h⟩
  · exact ⟨_, _, h⟩

/-- The three things the loop of an `execute(P)` can meet: an instruction, an illegal word, its end (R83). -/
theorem loopTest_cases (p : Program) (s : State) :
    (∃ w i t, s.running = true ∧ fetchWord p s.pc = some w ∧ decode w = .ok i ∧ exec i s.advancePc = .next t) ∨
      (∃ w op, s.running = true ∧ fetchWord p s.pc = some w ∧ decode w = .error (.unknownOpcode op)) ∨
      ¬ (s.running = true ∧ s.pc < p.length) := by
  by_cases htest : s.running = true ∧ s.pc < p.length
  · obtain ⟨hr, hlt⟩ := htest
    obtain ⟨w, hf⟩ := exists_fetchWord hlt
    rcases decode_ok_or_unknown w with ⟨i, hd⟩ | ⟨op, hd⟩
    · obtain ⟨t, he⟩ := exec_completes i s.advancePc
      exact .inl ⟨w, i, t, hr, hf, hd, he⟩
    · exact .inr (.inl ⟨w, op, hr, hf, hd⟩)
  · exact .inr (.inr htest)

end

/-! ### One transition -/

section
variable {s : State} {rest : List Command} (ha : s.active = none)
include ha

theorem step_of_execute {p : Program} (hcmd : s.commands = .execute p :: rest) :
    step s = .next { s.beginRun with active := some p, commands := rest } :=
  (step_of_idle ha).trans (acceptCommand_execute hcmd)

theorem step_of_step {p : Program} {t : State} {r : Result} (hcmd : s.commands = .step p :: rest)
    (h : stepCommand p { s with commands := rest } = .next (t, r)) : step s = .next (t.report r) := by
  rw [step_of_idle ha, acceptCommand_step hcmd, h, finish]

theorem step_of_state (hcmd : s.commands = .state :: rest) :
    step s = .next { s with commands := rest, results := s.results ++ [.snapshot s.view] } :=
  ((step_of_idle ha).trans (acceptCommand_state hcmd)).trans
    (congrArg _ (State.report_of_idle (s := { s with commands := rest }) ha _))

theorem step_of_clearState (hcmd : s.commands = .clearState :: rest) :
    step s = .next { State.reset with commands := rest, results := s.results ++ [.completed] } :=
  (step_of_idle ha).trans (acceptCommand_clearState hcmd)

/-- A refused `step`: the command is taken and the refusal reported, and that is all (R142). -/
theorem step_of_step_end {p : Program} (hcmd : s.commands = .step p :: rest) (hlen : p.length ≤ s.pc) :
    step s = .next { s with commands := rest, results := s.results ++ [.noMoreInstructions] } := by
  have hidle : State.active { s with commands := rest } = none := ha
  rw [step_of_step ha hcmd (stepCommand_of_end (s := { s with commands := rest }) hlen), State.report_of_idle hidle]

/-- A `step` of an illegal word: `pc` advances and the fault is reported (R141). -/
theorem step_of_step_error {p : Program} {w : Byte} {op : Nibble} (hcmd : s.commands = .step p :: rest)
    (hf : fetchWord p s.pc = some w) (hd : decode w = .error (.unknownOpcode op)) :
    step s = .next { s with pc := s.pc + 1, commands := rest,
                            results := s.results ++ [.fault (.unknownOpcode op)] } := by
  have hidle : (State.advancePc { s with commands := rest }).active = none := ha
  rw [step_of_step ha hcmd (stepCommand_of_error (s := { s with commands := rest }) hf hd),
    State.report_of_idle hidle]
  rfl

/-- A `step` of an instruction (R84). -/
theorem step_of_step_ok {p : Program} {w : Byte} {i : Instr} {t : State} (hcmd : s.commands = .step p :: rest)
    (hf : fetchWord p s.pc = some w) (hd : decode w = .ok i)
    (he : exec i { s with pc := s.pc + 1, commands := rest } = .next t) : step s = .next (t.report .completed) :=
  step_of_step ha hcmd (stepCommand_of_ok (s := { s with commands := rest }) hf hd he)

end

theorem step_completes (s : State) : ∃ t, step s = .next t := by
  cases ha : s.active with
  | some p =>
    rw [step_of_active ha]
    rcases loopTest_cases p s with ⟨w, i, t, hr, hf, hd, he⟩ | ⟨w, op, hr, hf, hd⟩ | hend
    · exact ⟨t, (executeTurn_of_ok hf hr hd).trans he⟩
    · exact ⟨_, executeTurn_of_error hf hr hd⟩
    · exact ⟨_, executeTurn_of_end hend⟩
  | none =>
    cases hcmd : s.commands with
    | nil => exact ⟨s, (step_of_idle ha).trans (acceptCommand_nil hcmd)⟩
    | cons c rest =>
      cases c with
      | execute p => exact ⟨_, step_of_execute ha hcmd⟩
      | state => exact ⟨_, step_of_state ha hcmd⟩
      | clearState => exact ⟨_, step_of_clearState ha hcmd⟩
      | step p =>
        obtain ⟨t, r, h⟩ := stepCommand_completes p { s with commands := rest }
        exact ⟨t.report r, step_of_step ha hcmd h⟩

/-! ### Runs -/

theorem run_one {s t : State} (h : step s = .next t) : Host.Core.run Sys2Proof.core 1 s = .next t := run_succ h

theorem run_completes (n : Nat) (s : State) : ∃ t, Host.Core.run Sys2Proof.core n s = .next t := by
  induction n generalizing s with
  | zero => exact ⟨s, rfl⟩
  | succ n ih =>
    obtain ⟨t, ht⟩ := step_completes s
    rw [run_succ ht]
    exact ih t

end Sys2Proof.Machine
end

section
/-! SUPPORT. Whole commands and runs, and the obligations of 40_engine_cycle.md. -/

namespace Sys2Proof.Machine

/-! ### The end of an `execute` -/

/-- From index `k` on, the program holds words of the instructions `is`. -/
def HoldsAt (p : Program) (k : Nat) (is : List Instr) : Prop :=
  ∀ j i, is[j]? = some i → ∃ w, fetchWord p (k + j) = some w ∧ decode w = .ok i

theorem HoldsAt.head {p : Program} {k : Nat} {i : Instr} {is : List Instr} (h : HoldsAt p k (i :: is)) :
    ∃ w, fetchWord p k = some w ∧ decode w = .ok i := h 0 i rfl

theorem HoldsAt.tail {p : Program} {k : Nat} {i : Instr} {is : List Instr} (h : HoldsAt p k (i :: is)) :
    HoldsAt p (k + 1) is := fun j x hj => by
  rw [Nat.add_right_comm]
  exact h (j + 1) x hj

theorem holdsAt_of_map_decode {p : Program} {n : Nat} {is : List Instr}
    (h : (p.take n).map decode = is.map .ok) : HoldsAt p 0 is := by
  intro j i hj
  have hmap : ((p.take n).map decode)[j]? = some (.ok i) := by rw [h, List.getElem?_map, hj]; rfl
  rw [List.getElem?_map] at hmap
  obtain ⟨w, hw, hd⟩ := Option.map_eq_some_iff.mp hmap
  rw [List.getElem?_take] at hw
  obtain ⟨-, hw⟩ := Option.ite_none_right_eq_some.mp hw
  exact ⟨w, by rwa [Nat.zero_add], hd⟩

/-- Where the loop of an `execute` must end: the words before are instructions other than STOP, and then comes the end of
the program, a STOP, or an illegal word (R87). -/
theorem exists_end_of_run (p : Program) : ∃ is : List Instr, is.length ≤ p.length ∧
    (p.take is.length).map decode = is.map .ok ∧ Instr.stop ∉ is ∧
    (is.length = p.length ∨ ∃ w, p[is.length]? = some w ∧
      (decode w = .ok .stop ∨ ∃ op, decode w = .error (.unknownOpcode op))) := by
  induction p with
  | nil => exact ⟨[], Nat.le_refl _, rfl, List.not_mem_nil, .inl rfl⟩
  | cons w p ih =>
    rcases decode_ok_or_unknown w with ⟨i, hd⟩ | hd
    · by_cases hi : i = .stop
      · exact ⟨[], Nat.zero_le _, rfl, List.not_mem_nil, .inr ⟨w, rfl, .inl (hi ▸ hd)⟩⟩
      · obtain ⟨is, hlen, hmap, hstop, hend⟩ := ih
        refine ⟨i :: is, Nat.succ_le_succ hlen, by simp [hd, hmap], ?_, hend.imp_left (congrArg (· + 1))⟩
        exact List.not_mem_cons_of_ne_of_not_mem (Ne.symm hi) hstop
    · exact ⟨[], Nat.zero_le _, rfl, List.not_mem_nil, .inr ⟨w, rfl, .inr hd⟩⟩

/-- The loop runs over instructions other than STOP as `execAll` does, whatever cycles are left. -/
theorem executeLoop_over {p : Program} {k : Nat} {is : List Instr} {s u : State} (fuel : Nat)
    (hheld : HoldsAt p k is) (hstop : Instr.stop ∉ is) (h : execAll is s = .next u) :
    executeLoop (fuel + is.length) p (s.runningAt k) = executeLoop fuel p (u.runningAt (k + is.length)) := by
  induction is generalizing k s with
  | nil => cases h; rfl
  | cons i is ih =>
    obtain ⟨hi, his⟩ := List.ne_and_not_mem_of_not_mem_cons hstop
    obtain ⟨w, hf, hd⟩ := hheld.head
    obtain ⟨v, hv⟩ := exec_completes i s
    have hcycle : cycle w (s.runningAt k) = .next (v.runningAt (k + 1), none) :=
      cycle_of_ok hd (exec_runningAt hv (Ne.symm hi) (k + 1))
    rw [execAll_cons hv] at h
    rw [List.length_cons, ← Nat.add_assoc, executeLoop_of_cycle _ rfl hf hcycle, ih hheld.tail his h,
      Nat.add_assoc k, Nat.add_comm 1]

theorem execAll_completes (is : List Instr) (s : State) : ∃ t, execAll is s = .next t := by
  induction is generalizing s with
  | nil => exact ⟨s, rfl⟩
  | cons i is ih =>
    obtain ⟨t, ht⟩ := exec_completes i s
    rw [execAll_cons ht]
    exact ih t

/-- An `execute` whose program begins with instructions other than STOP goes on after them. -/
theorem executeCommand_over {p : Program} {is : List Instr} {s u : State} (hlen : is.length ≤ p.length)
    (hmap : (p.take is.length).map decode = is.map .ok) (hstop : Instr.stop ∉ is) (h : execAll is s = .next u) :
    executeCommand p s = executeLoop (p.length - is.length) p (u.runningAt is.length) := by
  have hover := executeLoop_over (p.length - is.length) (holdsAt_of_map_decode hmap) hstop h
  rwa [Nat.sub_add_cancel hlen, Nat.zero_add] at hover

/-- Settles O42: the loop runs over the words before its end, and its end is one of the three. -/
theorem executeEndsInOneOfThreeWays : Obligations.ExecuteEndsInOneOfThreeWays := by
  intro p s
  obtain ⟨is, hlen, hmap, hstop, hend⟩ := exists_end_of_run p
  obtain ⟨u, hu⟩ := execAll_completes is s
  refine ⟨is.length, is, u, hmap, hstop, hu, ?_⟩
  rw [executeCommand_over hlen hmap hstop hu]
  rcases hend with hoff | ⟨w, hw, hd⟩
  · refine .inr (.inl ⟨hoff, ?_⟩)
    rw [executeLoop_of_test_fails _ (by simp [hoff]), hoff]
    rfl
  · have hf : fetchWord p (u.runningAt is.length).pc = some w := hw
    have hlt : is.length < p.length := fetchWord_eq_some hf
    obtain ⟨fuel, hfuel⟩ := Nat.exists_eq_add_one.mpr (Nat.sub_pos_of_lt hlt)
    rw [hfuel]
    rcases hd with hd | ⟨op, hd⟩
    · refine .inl ⟨hlt, ⟨w, hw, hd⟩, ?_⟩
      rw [executeLoop_of_cycle fuel rfl hf (cycle_of_ok hd rfl)]
      exact executeLoop_of_not_running fuel p rfl
    · exact .inr (.inr ⟨hlt, w, op, hw, hd, executeLoop_of_error hf fuel rfl hd⟩)

/-! ### The machine against the commands as wholes -/

/-- The state with an `execute(P)` in progress. -/
def State.executing (s : State) (p : Program) : State := { s with active := some p }

theorem step_executing (s : State) (p : Program) : step (s.executing p) = executeTurn p (s.executing p) :=
  step_of_active rfl

theorem exec_executing {i : Instr} {s t : State} (h : exec i s = .next t) (p : Program) :
    exec i (s.executing p) = .next (t.executing p) := by
  refine (exec_withHostSide h (some p) s.commands s.results).trans ?_
  rw [← exec_commands h, ← exec_results h]
  rfl

/-- With cycles enough for the words left, the loop answers what the machine reaches from the same state with the
`execute` in progress: one transition a cycle, one for the test that ends it. -/
theorem executeLoop_refined (p : Program) (fuel : Nat) (s : State) (hfuel : p.length ≤ s.pc + fuel) :
    ∃ n ≤ fuel + 1, ∃ t r, executeLoop fuel p s = .next (t, r) ∧
      Host.Core.run Sys2Proof.core n (s.executing p) = .next (t.report r) := by
  have hends {s : State} (hend : ¬ (s.running = true ∧ s.pc < p.length)) :
      Host.Core.run Sys2Proof.core 1 (s.executing p) = .next (s.report .completed) :=
    run_one ((step_executing s p).trans (executeTurn_of_end (s := s.executing p) hend))
  induction fuel generalizing s with
  | zero =>
    have hend : ¬ (s.running = true ∧ s.pc < p.length) := fun htest => Nat.not_lt.mpr hfuel htest.2
    exact ⟨1, Nat.le_refl _, s, .completed, executeLoop_of_test_fails 0 hend, hends hend⟩
  | succ fuel ih =>
    rcases loopTest_cases p s with ⟨w, i, u, hr, hf, hd, he⟩ | ⟨w, op, hr, hf, hd⟩ | hend
    · have hpc : p.length ≤ u.pc + fuel := by rw [exec_pc he, State.advancePc_pc]; omega
      obtain ⟨n, hn, t, r, hloop, hrun⟩ := ih u hpc
      have hturn : executeTurn p (s.executing p) = .next (u.executing p) :=
        (executeTurn_of_ok (s := s.executing p) hf hr hd).trans (exec_executing he p)
      exact ⟨n + 1, Nat.succ_le_succ hn, t, r,
        (executeLoop_of_cycle fuel hr hf (cycle_of_ok hd he)).trans hloop,
        (run_succ ((step_executing s p).trans hturn)).trans hrun⟩
    · have hturn := executeTurn_of_error (s := s.executing p) hf hr hd
      exact ⟨1, by omega, _, _, executeLoop_of_error hf fuel hr hd, run_one ((step_executing s p).trans hturn)⟩
    · exact ⟨1, by omega, _, _, executeLoop_of_test_fails _ hend, hends hend⟩

/-- Settles O43: an `execute` by the refinement of its loop, the other three commands in one transition. -/
theorem machineRefinesWholeCommands : Obligations.MachineRefinesWholeCommands := by
  intro s cmd rest ha hcmd
  cases cmd with
  | execute p =>
    obtain ⟨n, hn, t, r, hloop, hrun⟩ :=
      executeLoop_refined p p.length (State.beginRun { s with commands := rest }) (Nat.le_add_left _ _)
    exact ⟨n + 1, Nat.succ_le_succ hn, t, r, hloop, (run_succ (step_of_execute ha hcmd)).trans hrun⟩
  | step p =>
    obtain ⟨t, r, h⟩ := stepCommand_completes p { s with commands := rest }
    exact ⟨1, Nat.le_add_left _ _, t, r, h, run_one (step_of_step ha hcmd h)⟩
  | state =>
    exact ⟨1, by omega, _, _, rfl, run_one ((step_of_idle ha).trans (acceptCommand_state hcmd))⟩
  | clearState =>
    exact ⟨1, by omega, _, _, rfl, run_one ((step_of_idle ha).trans (acceptCommand_clearState hcmd))⟩

/-! ### The flag between commands -/

/-- A `step(P)` with another flag: the same result, the same state but for the flag, and a flag that is down stays
down (R91). -/
theorem stepCommand_withRunning (p : Program) (s : State) :
    ∃ t r, stepCommand p s = .next (t, r) ∧ ∀ b : Bool, ∃ b' : Bool, (b = false → b' = false) ∧
      stepCommand p (s.withRunning b) = .next (t.withRunning b', r) := by
  rcases stepCommand_cases p s with ⟨w, i, t, hf, hd, he, h⟩ | ⟨w, op, hf, hd, h⟩ | ⟨hge, h⟩
  · exact ⟨t, _, h, fun b => ⟨b && decide (i ≠ .stop), fun hb => by rw [hb, Bool.false_and],
      stepCommand_of_ok (s := s.withRunning b) hf hd (exec_withRunning he b)⟩⟩
  · exact ⟨_, _, h, fun b => ⟨b, id, stepCommand_of_error (s := s.withRunning b) hf hd⟩⟩
  · exact ⟨_, _, h, fun b => ⟨b, id, stepCommand_of_end (s := s.withRunning b) hge⟩⟩

/-- A transition of the idle machine with another flag: the two next states are idle and agree but for the flag, or agree
in everything. -/
theorem step_withRunning {s : State} (ha : s.active = none) (b : Bool) :
    ∃ (t : State) (b' : Bool), step s = .next t ∧ step (s.withRunning b) = .next (t.withRunning b') ∧
      (t.active = none ∨ b' = t.running) := by
  have hb : (s.withRunning b).active = none := ha
  have hsame : (s.withRunning b).commands = s.commands := rfl
  cases hcmd : s.commands with
  | nil =>
    exact ⟨s, b, (step_of_idle ha).trans (acceptCommand_nil hcmd),
      (step_of_idle hb).trans (acceptCommand_nil (hsame.trans hcmd)), .inl ha⟩
  | cons c rest =>
    cases c with
    | execute p =>
      exact ⟨_, true, step_of_execute ha hcmd, step_of_execute hb (hsame.trans hcmd), .inr rfl⟩
    | step p =>
      obtain ⟨t, r, h, hother⟩ := stepCommand_withRunning p { s with commands := rest }
      obtain ⟨b', -, h'⟩ := hother b
      exact ⟨t.report r, b', step_of_step ha hcmd h, step_of_step hb (hsame.trans hcmd) h', .inl rfl⟩
    | state => exact ⟨_, b, step_of_state ha hcmd, step_of_state hb (hsame.trans hcmd), .inl ha⟩
    | clearState =>
      exact ⟨_, true, step_of_clearState ha hcmd, step_of_clearState hb (hsame.trans hcmd), .inl rfl⟩

/-- As soon as an `execute` begins the two states are one; until then they stay idle and agree but for the flag. -/
theorem run_withRunning (n : Nat) {s : State} (ha : s.active = none) (b : Bool) :
    ∃ (t : State) (b' : Bool), Host.Core.run Sys2Proof.core n s = .next t ∧
      Host.Core.run Sys2Proof.core n (s.withRunning b) = .next (t.withRunning b') := by
  induction n generalizing s b with
  | zero => exact ⟨s, b, rfl, rfl⟩
  | succ n ih =>
    obtain ⟨t, b', ht, hu, hsame⟩ := step_withRunning ha b
    rw [run_succ ht, run_succ hu]
    rcases hsame with hidle | rfl
    · exact ih hidle b'
    · obtain ⟨v, hv⟩ := run_completes n t
      exact ⟨v, v.running, hv, hv⟩

/-- Settles O44, as `run_withRunning`. -/
theorem idleRunningFlagIsUnobservable : Obligations.IdleRunningFlagIsUnobservable := by
  intro n s b ha
  obtain ⟨t, b', ht, hu⟩ := run_withRunning n ha b
  exact ⟨t, t.withRunning b', ht, hu, rfl⟩

/-! ### The obligations of 40_engine_cycle.md on single instructions and steps -/

/-- Settles O12, from completion and the frame of `exec`. -/
theorem everyInstructionCompletesWithoutTouchingPc : Obligations.EveryInstructionCompletesWithoutTouchingPc := by
  intro i s
  obtain ⟨t, h⟩ := exec_completes i s
  exact ⟨t, h, exec_pc h, exec_active h, exec_commands h, exec_results h⟩

/-- Settles O11, as `step_completes`. -/
theorem everyStepAnswersNextState : Obligations.EveryStepAnswersNextState := step_completes

/-- Settles O9: `pc` advances only past a word of the program, and an `execute` begins at 0. -/
theorem everyStepKeepsRunInRange : Obligations.EveryStepKeepsRunInRange := by
  intro s t hrange h p hp
  cases step_cases h with
  | turnRuns q w i _ ha hr hf hd he =>
    rw [exec_active he, State.advancePc_active, ha] at hp
    cases hp
    rw [exec_pc he]
    exact fetchWord_eq_some hf
  | executeBegins q rest ha hcmd => exact Nat.zero_le _
  | idles ha hcmd => exact hrange p hp
  | turnFaults | turnEnds | stepRuns | stepFaults | stepRefused | snapshots | clears => cases hp

/-- Settles O10: `pc` advances only past a word of a program, and every program is one of the bounded ones. -/
theorem pcNeverOutgrowsItsRegister : Obligations.PcNeverOutgrowsItsRegister := by
  intro lenMax pcw s t hreg hbounded h
  have hkeeps : t.PcBounded lenMax := by
    obtain ⟨hpc, hactive, hcommands⟩ := hbounded
    have hnone (p : Program) (hp : none = some p) : p.length ≤ lenMax := nomatch hp
    have htaken {c : Command} {rest : List Command} (hcmd : s.commands = c :: rest) :
        c.programLength ≤ lenMax ∧ ∀ c ∈ rest, c.programLength ≤ lenMax :=
      List.forall_mem_cons.mp (hcmd ▸ hcommands)
    cases step_cases h with
    | turnRuns p w i _ ha hr hf hd he =>
      unfold State.PcBounded
      rw [exec_pc he, exec_active he, exec_commands he]
      exact ⟨Nat.le_trans (fetchWord_eq_some hf) (hactive p ha), hactive, hcommands⟩
    | turnFaults p w op ha hr hf hd =>
      exact ⟨Nat.le_trans (fetchWord_eq_some hf) (hactive p ha), hnone, hcommands⟩
    | turnEnds p ha hend => exact ⟨hpc, hnone, hcommands⟩
    | idles ha hcmd => exact ⟨hpc, hactive, hcommands⟩
    | executeBegins p rest ha hcmd =>
      refine ⟨Nat.zero_le _, fun q hq => ?_, (htaken hcmd).2⟩
      cases hq
      exact (htaken hcmd).1
    | stepRuns p rest w i u ha hcmd hf hd he =>
      unfold State.PcBounded
      rw [State.report_pc, State.report_commands, exec_pc he, exec_commands he]
      exact ⟨Nat.le_trans (fetchWord_eq_some hf) (htaken hcmd).1, hnone, (htaken hcmd).2⟩
    | stepFaults p rest w op ha hcmd hf hd =>
      exact ⟨Nat.le_trans (fetchWord_eq_some hf) (htaken hcmd).1, hnone, (htaken hcmd).2⟩
    | stepRefused p rest ha hcmd hlen => exact ⟨hpc, hnone, (htaken hcmd).2⟩
    | snapshots rest ha hcmd => exact ⟨hpc, hnone, (htaken hcmd).2⟩
    | clears rest ha hcmd => exact ⟨Nat.zero_le _, hnone, (htaken hcmd).2⟩
  exact ⟨hkeeps, Nat.lt_of_le_of_lt hkeeps.1 hreg⟩

/-- The words of the opcode table that decode (R50, R57). -/
theorem decodeTableWord_eq_some {nbits w : Nat} {i : Instr} (h : decodeTableWord nbits w = some i) :
    decode (BitVec.ofNat 8 w) = .ok i := by
  unfold decodeTableWord at h
  obtain ⟨-, h⟩ := Option.ite_none_right_eq_some.mp h
  split at h <;> cases h
  assumption

/-- Settles O33: the padding of the presented program ends just at `pc`. -/
theorem presentedWordIsRunNext : Obligations.PresentedWordIsRunNext := by
  intro s w i hw
  obtain ⟨t, ht⟩ := exec_completes i { s with pc := s.pc + 1, active := none }
  have hf : fetchWord (List.replicate s.pc 0 ++ [BitVec.ofNat 8 w]) s.pc = some (BitVec.ofNat 8 w) := by
    simp [fetchWord]
  exact ⟨t, ht, step_of_step_ok (s := s.withFetchWord 8 w) rfl rfl hf (decodeTableWord_eq_some hw) ht⟩

/-- Settles O36: the first `step` reports the fault with `pc` past the illegal word, where the second runs. -/
theorem stepResumesAfterIllegalWord : Obligations.StepResumesAfterIllegalWord := by
  intro s p rest bad good op i ha hcmd hbad hdbad hgood hdgood
  obtain ⟨t, ht⟩ := exec_completes i { s with pc := s.pc + 2, commands := rest,
                                              results := s.results ++ [.fault (.unknownOpcode op)] }
  have hsecond := step_of_step_ok (s := { s with pc := s.pc + 1, commands := .step p :: rest,
                                                 results := s.results ++ [.fault (.unknownOpcode op)] })
    ha rfl hgood hdgood ht
  exact ⟨t, ht, (run_succ (step_of_step_error ha hcmd hbad hdbad)).trans (run_one hsecond)⟩

/-- Settles O37: of all that a step can do, only the refusal adds this result. -/
theorem noMoreInstructionsChangesNothing : Obligations.NoMoreInstructionsChangesNothing := by
  refine ⟨fun s p rest ha hcmd hlen => step_of_step_end ha hcmd hlen, fun s t h hres => ?_⟩
  cases step_cases h with
  | stepRefused p rest ha hcmd hlen => exact ⟨ha, p, rest, hcmd, hlen⟩
  | turnRuns p w i _ ha hr hf hd he => simp [exec_results he] at hres
  | stepRuns p rest w i u ha hcmd hf hd he => simp [exec_results he] at hres
  | turnFaults | turnEnds | idles | executeBegins | stepFaults | snapshots | clears => simp at hres

/-- Settles O38: the command answers the same with the flag down, which it leaves down. -/
theorem stepIgnoresRunningFlag : Obligations.StepIgnoresRunningFlag := by
  intro s p rest ha hcmd
  obtain ⟨t, r, hup, hother⟩ := stepCommand_withRunning p { s with running := true, commands := rest }
  obtain ⟨b', hb', hdown⟩ := hother false
  rw [hb' rfl] at hdown
  exact ⟨t.report r, step_of_step (s := s.withRunning true) ha hcmd hup,
    step_of_step (s := s.withRunning false) ha hcmd hdown⟩

/-- Settles O31: the three cases of a `step(P)`, each with the state it leaves. -/
theorem stepCommandRunsOneInstruction : Obligations.StepCommandRunsOneInstruction := by
  intro s p rest ha hcmd
  refine ⟨step_of_step_end ha hcmd, fun hlt => ?_⟩
  obtain ⟨w, hf⟩ := exists_fetchWord hlt
  refine ⟨w, hf, fun i hd => ?_, fun op hd => step_of_step_error ha hcmd hf hd⟩
  obtain ⟨t, ht⟩ := exec_completes i { s with pc := s.pc + 1, commands := rest }
  exact ⟨t, ht, step_of_step_ok ha hcmd hf hd ht⟩

/-- Settles O32, as the turn of a decoded word. -/
theorem executeTurnRunsDecodedInstruction : Obligations.ExecuteTurnRunsDecodedInstruction :=
  fun _ _ _ _ ha hr hf hd => (step_of_active ha).trans (executeTurn_of_ok hf hr hd)

/-- Settles O34: the begin of the run, and the three turns of its loop. -/
theorem executeLoopFollowsItsTest : Obligations.ExecuteLoopFollowsItsTest := by
  refine ⟨fun s p rest ha hcmd => step_of_execute ha hcmd, fun s p ha => ⟨fun hend => ?_, fun ⟨hr, hlt⟩ => ?_⟩⟩
  · exact (step_of_active ha).trans (executeTurn_of_end hend)
  · obtain ⟨w, hf⟩ := exists_fetchWord hlt
    exact ⟨w, hf, fun op hd => (step_of_active ha).trans (executeTurn_of_error hf hr hd),
      fun i hd => (step_of_active ha).trans (executeTurn_of_ok hf hr hd)⟩

/-- Settles O13: the STOP's own cycle, and in an `execute` the turn whose loop test then fails. -/
theorem stopClearsRunningOnly : Obligations.StopClearsRunningOnly := by
  refine ⟨fun data => decode_of_ignored_data (opcodeField_pack 1 data) (by simp), rfl, fun s => rfl,
    fun s p w hf hd => ⟨fun ha hr => ?_, fun rest ha hcmd => ?_⟩⟩
  · have hstop : step s = .next s.advancePc.clearRunning :=
      (step_of_active ha).trans (executeTurn_of_ok hf hr hd)
    have hends : step s.advancePc.clearRunning = .next (s.advancePc.clearRunning.report .completed) :=
      (step_of_active (s := s.advancePc.clearRunning) ha).trans (executeTurn_of_end (by simp))
    exact (run_succ hstop).trans (run_one hends)
  · refine (step_of_step_ok ha hcmd hf hd rfl).trans (congrArg _ ?_)
    exact State.report_of_idle (s := { s with pc := s.pc + 1, running := false, commands := rest }) ha _

/-- Settles O39: the snapshot's list is the sixteen cells as `MemRead` answers them. -/
theorem stateCommandReturnsSnapshot : Obligations.StateCommandReturnsSnapshot := by
  intro s rest ha hcmd
  refine ⟨s.view, step_of_state ha hcmd, rfl, rfl, rfl, rfl, rfl, by simp [State.view], fun k hk => ?_⟩
  rw [memRead_of_lt hk]
  simp [State.view, hk]

/-- Settles O40, as the transition of `clear_state`. -/
theorem clearStateResetsEngine : Obligations.ClearStateResetsEngine :=
  fun _ _ ha hcmd => step_of_clearState ha hcmd

end Sys2Proof.Machine
end

section
/-! SUPPORT. LOAD, STORE and FETCH: their words, and runs of LOADs, with the obligations of 42_load_store_fetch.md. -/

namespace Sys2Proof.Machine

/-! ### Words of one opcode -/

/-- A word packed from an instruction's opcode decodes to it, whatever the instruction takes from the data field. -/
theorem decode_pack {opcode data : Nibble} {i : Instr} (hop : opcode = opcodeOf i) (h : DataUse data i) :
    decode (pack opcode data) = .ok i := by
  rw [decode_eq_ok_iff, opcodeField_pack, dataField_pack]
  exact ⟨hop, h⟩

/-! ### A store and the other cells -/

theorem memWrite_cell_of_ne {addr k : Nat} (s : State) (v : Nibble) (h : k ≠ addr) :
    Memory.cell (memWrite s addr v).mem k = Memory.cell s.mem k := by
  rw [memWrite_cell, if_neg fun hk => h hk.2.symm]

/-! ### LOADs -/

theorem exec_load (data : Nibble) (s : State) : exec (.load data) s = .next (s.push data) := rfl

/-- A sequence of LOADs pushes its immediates in order (R110). -/
theorem execAll_loads (vs : List Nibble) (s : State) :
    execAll (vs.map .load) s = .next (vs.foldl State.push s) := by
  induction vs generalizing s with
  | nil => rfl
  | cons v vs ih =>
    rw [List.map_cons, execAll_cons (exec_load v s), ih, List.foldl_cons]

/-! ### The obligations of 42_load_store_fetch.md -/

/-- Settles O15, from the read-after-write rules of `MemWrite` and its guard. -/
theorem storeWritesOneCell : Obligations.StoreWritesOneCell := by
  refine ⟨fun data => decode_pack rfl .store, fun addr s => ⟨fun hlt => ?_, fun hge => ?_⟩⟩
  · refine ⟨(memWrite s addr s.a).mem, ?_⟩
    rw [← memWrite_eq]
    exact ⟨exec_store addr s, memRead_memWrite_same s s.a hlt, fun k hk => memWrite_cell_of_ne s s.a hk⟩
  · rw [exec_store, memWrite_of_ge hge]

/-- Settles O22: `MemWrite` changes the memory list at most, and there one cell. -/
theorem storeFrame : Obligations.StoreFrame := by
  intro addr s t h
  obtain rfl : memWrite s addr s.a = t := Host.Outcome.next.inj h
  have hcells := fun k hk => memWrite_cell_of_ne (addr := addr) (k := k) s s.a hk
  rw [memWrite_eq] at hcells ⊢
  exact ⟨rfl, rfl, rfl, rfl, rfl, rfl, rfl, rfl, rfl, hcells⟩

/-- Settles O14: LOAD is a push of its immediate. -/
theorem loadPushesImmediate : Obligations.LoadPushesImmediate :=
  ⟨fun _ => decode_pack rfl .load, exec_load⟩

/-- Settles O16: below 16 `MemRead` answers the value to push, from 16 on it has none. -/
theorem fetchPushesCell : Obligations.FetchPushesCell := by
  refine ⟨fun data => decode_pack rfl .fetch, fun addr s => ⟨fun hlt => ?_, fun hge => ?_⟩⟩
  · have hread := memRead_of_lt (s := s) hlt
    exact ⟨_, hread, (exec_fetch addr s).trans (congrArg _ (State.pushCell_of_some hread))⟩
  · rw [exec_fetch, State.pushCell_of_none (memRead_of_ge hge)]

/-- Settles O48: the four pushes leave nothing of the old chain. -/
theorem fourPushesOverwriteTheChain : Obligations.FourPushesOverwriteTheChain :=
  fun s w x y z => execAll_loads [w, x, y, z] s

end Sys2Proof.Machine
end

section
/-! SUPPORT. ADD, AND, OR and NOT: each as one update of the state, and short sequences that use them, with the
obligations of 43_alu.md. -/

namespace Sys2Proof.Machine

/-! ### Arithmetic of nibbles -/

/-- The narrowed unsigned sum is the 4-bit sum (R120). -/
theorem addNibbles_eq (x y : Nibble) : addNibbles x y = x + y := by
  apply BitVec.eq_of_toNat_eq
  rw [addNibbles, BitVec.toNat_ofNat, BitVec.toNat_add]
  exact Nat.mod_mod _ _

/-- The complement plus one is the negative, so adding it subtracts (R124). -/
theorem toNat_add_not_add_one (x y : Nibble) :
    ((x + (~~~y + 1)).toNat : Int) = ((x.toNat : Int) - y.toNat) % 16 := by
  have hneg : ~~~y + 1 = -y := (BitVec.neg_eq_not_add y).symm
  have hx := x.isLt
  have hy := y.isLt
  rw [hneg, ← BitVec.sub_eq_add_neg, BitVec.toNat_sub]
  omega

/-! ### Single instructions -/

theorem exec_add (s : State) : exec .add s = .next (s.combine (· + ·)) :=
  congrArg (fun op => Host.Outcome.next (s.combine op)) (funext₂ addNibbles_eq)

theorem exec_and (s : State) : exec .and s = .next (s.combine (· &&& ·)) := rfl

theorem exec_or (s : State) : exec .or s = .next (s.combine (· ||| ·)) := rfl

theorem exec_not (s : State) : exec .not s = .next (s.setA (~~~s.a)) := rfl

/-- The one shape of the two-operand instructions: `a op b` in `a`, the chain retracted (R120 to R122). -/
theorem exec_eq_combine {i : Instr} (hi : i ∈ [Instr.add, .and, .or]) (s : State) :
    ∃ op, exec i s = .next (s.combine op) := by
  simp only [List.mem_cons, List.not_mem_nil, or_false] at hi
  rcases hi with rfl | rfl | rfl
  · exact ⟨_, exec_add s⟩
  · exact ⟨_, exec_and s⟩
  · exact ⟨_, exec_or s⟩

/-- NOT is an involution on the whole state (R123). -/
theorem exec_not_setA_not (s : State) : exec .not (s.setA (~~~s.a)) = .next s := by
  rw [exec_not, State.setA_a, BitVec.not_not]
  rfl

/-! ### A two-operand instruction after LOADs -/

section
variable {i : Instr} {op : Nibble → Nibble → Nibble} (h : ∀ s, exec i s = .next (s.combine op))
include h

/-- The operands pushed are gone from the chain again, `c` and `d` are lost (R125 (3)). -/
theorem execAll_load_load_combine (s : State) (x y : Nibble) :
    execAll [.load x, .load y, i] s = .next { s with a := op y x, b := s.a, c := s.b, d := 0 } := by
  rw [execAll_cons (exec_load x s), execAll_cons (exec_load y _), execAll_cons (h _)]
  rfl

/-- A push and the retraction after it restore `b` and `c` (R125 (4)). -/
theorem execAll_load_combine (s : State) (x : Nibble) :
    execAll [.load x, i] s = .next { s with a := op x s.a, b := s.b, c := s.c, d := 0 } := by
  rw [execAll_cons (exec_load x s), execAll_cons (h _)]
  rfl

end

/-- The first four instructions of program P5 push the negative of `y` (R124). -/
theorem execAll_negate_cons (s : State) (y : Nibble) (rest : List Instr) :
    execAll (.load 1 :: .load y :: .not :: .add :: rest) s =
      execAll rest { s with a := ~~~y + 1, b := s.a, c := s.b, d := 0 } := by
  rw [execAll_cons (exec_load 1 s), execAll_cons (exec_load y _), execAll_cons (exec_not _),
    execAll_cons (exec_add _)]
  rfl

/-! ### The obligations of 43_alu.md -/

/-- Settles O47: the signed sum is that of `BitVec.toInt_add`, and the sequence of program P5 computes
`x + (NOT y + 1)`. -/
theorem subtractionByComplementAndAdd : Obligations.SubtractionByComplementAndAdd :=
  ⟨fun s => ⟨_, exec_add s, BitVec.toInt_add s.a s.b⟩,
    fun s x y => ⟨_, (execAll_negate_cons s y _).trans (execAll_load_combine exec_add _ x),
      toNat_add_not_add_one x y⟩⟩

/-- Settles O17: the sum of two nibbles is at most 30, so the remainder takes off 16 at most once. -/
theorem addWrapsAndRetracts : Obligations.AddWrapsAndRetracts := by
  refine ⟨fun data => decode_pack rfl (.ignores _ (by decide)), rfl, fun s => ?_⟩
  have hsum : (s.a + s.b).toNat = (s.a.toNat + s.b.toNat) % 16 := BitVec.toNat_add s.a s.b
  refine ⟨s.a + s.b, exec_add s, hsum, hsum.trans ?_⟩
  have ha := s.a.isLt
  have hb := s.b.isLt
  split <;> omega

/-- Settles O18, from the bits of `&&&`. -/
theorem andIsBitwiseAndRetracts : Obligations.AndIsBitwiseAndRetracts :=
  ⟨fun data => decode_pack rfl (.ignores _ (by decide)), rfl,
    fun s => ⟨s.a &&& s.b, exec_and s, fun _ _ => BitVec.getLsbD_and⟩⟩

/-- Settles O19, from the bits of `|||`. -/
theorem orIsBitwiseAndRetracts : Obligations.OrIsBitwiseAndRetracts :=
  ⟨fun data => decode_pack rfl (.ignores _ (by decide)), rfl,
    fun s => ⟨s.a ||| s.b, exec_or s, fun _ _ => BitVec.getLsbD_or⟩⟩

/-- Settles O20: the value and the bits of the complement, and its involution. -/
theorem notComplementsAOnly : Obligations.NotComplementsAOnly := by
  refine ⟨fun data => decode_pack rfl (.ignores _ (by decide)), rfl,
    fun s => ⟨~~~s.a, exec_not s, BitVec.toNat_not, fun k hk => ?_, exec_not_setA_not s⟩⟩
  rw [BitVec.getLsbD_not, decide_eq_true hk, Bool.true_and]

/-- Settles O46, clause by clause from the equations of the instructions; the last is the frame of `exec`. -/
theorem aluConsequences : Obligations.AluConsequences := by
  refine ⟨fun s i hi => ?_, fun s => ?_, fun s x y => ⟨?_, ?_, ?_⟩, execAll_load_combine exec_add,
    fun s i hi => ?_⟩
  · obtain ⟨op, h⟩ := exec_eq_combine hi s
    exact ⟨_, h, rfl, rfl, rfl⟩
  · rw [execAll_cons (exec_not s), execAll_cons (exec_not_setA_not s)]
    rfl
  · rw [BitVec.add_comm x y]
    exact execAll_load_load_combine exec_add s x y
  · rw [BitVec.and_comm x y]
    exact execAll_load_load_combine exec_and s x y
  · rw [BitVec.or_comm x y]
    exact execAll_load_load_combine exec_or s x y
  · obtain ⟨t, ht⟩ := exec_completes i s
    have hmem : t.mem = s.mem := (exec_mem ht).resolve_right (by rintro ⟨addr, rfl, -⟩; simp at hi)
    have hstop : i ≠ .stop := by rintro rfl; simp at hi
    exact ⟨t, ht, hmem, by simp [exec_running ht, hstop], exec_pc ht⟩

end Sys2Proof.Machine
end

section
/-! SUPPORT. Single steps against the loop of an `execute`, and the obligations of 60_exceptions.md. -/

namespace Sys2Proof.Machine

/-! ### The flag, where no STOP is run -/

theorem exec_keeps_running {i : Instr} {s t : State} (h : exec i s = .next t) (hi : i ≠ .stop) :
    t.running = s.running := by
  rw [exec_running h, decide_eq_true hi, Bool.and_true]

/-! ### `step` after `step` -/

section
variable {p : Program} {s t : State}

theorem stepMany_of_completed (n : Nat) (h : stepCommand p s = .next (t, .completed)) :
    stepMany (n + 1) p s = stepMany n p t := by
  simp only [stepMany, h]

theorem stepMany_of_fault {f : Fault} (n : Nat) (h : stepCommand p s = .next (t, .fault f)) :
    stepMany (n + 1) p s = .next (t, .fault f) := by
  simp only [stepMany, h]

theorem stepMany_of_end (n : Nat) (h : p.length ≤ s.pc) : stepMany n p s = .next (s, .completed) := by
  cases n with
  | zero => rfl
  | succ n => simp only [stepMany, stepCommand_of_end h]

end

/-- With the flag up and no STOP word, as many `step`s as the loop has cycles left do what the loop does: each `step` is
one cycle, and the flag stays up for the next loop test (R83, R84). -/
theorem stepMany_eq_executeLoop {p : Program} (hstop : ∀ w ∈ p, decode w ≠ .ok .stop) (n : Nat) {s : State}
    (hr : s.running = true) : stepMany n p s = executeLoop n p s := by
  induction n generalizing s with
  | zero => rfl
  | succ n ih =>
    rcases stepCommand_cases p s with ⟨w, i, t, hf, hd, he, hstep⟩ | ⟨w, op, hf, hd, hstep⟩ | ⟨hend, -⟩
    · have hi : i ≠ .stop := fun hi => hstop w (List.mem_of_getElem? hf) (hi ▸ hd)
      have hrt : t.running = true := (exec_keeps_running he hi).trans hr
      rw [stepMany_of_completed n hstep, executeLoop_of_cycle n hr hf (cycle_of_ok hd he), ih hrt]
    · rw [stepMany_of_fault n hstep, executeLoop_of_error hf n hr hd]
    · rw [stepMany_of_end _ hend, executeLoop_of_end _ (fetchWord_eq_none.mpr hend)]

/-! ### The obligations of 60_exceptions.md -/

/-- Settles O45: `execute` is its loop from the start of the run, which single steps follow. -/
theorem steppingEqualsExecutingWithoutStop : Obligations.SteppingEqualsExecutingWithoutStop :=
  fun p _ hstop => stepMany_eq_executeLoop hstop p.length rfl

/-- Settles O35: such a word decodes to the error of its own opcode, which both commands report. -/
theorem unknownOpcodeAdvancesPcOnly : Obligations.UnknownOpcodeAdvancesPcOnly := by
  intro s p w hf hop
  have hd : decode w = .error (.unknownOpcode (opcodeField w)) := (illegalWordsAreRejected w).1 hop
  exact ⟨fun rest ha hcmd => step_of_step_error ha hcmd hf hd,
    fun ha hr => (step_of_active ha).trans (executeTurn_of_error hf hr hd)⟩

end Sys2Proof.Machine
end

section
/-! SUPPORT. The spec's decoding vectors, the reset state against the invariants, the idle engine, and the truncation
of an operand. -/

namespace Sys2Proof.Machine

/-! ### Idle states -/

/-- With no `execute` in progress there is no program for `pc` to pass. -/
theorem State.runInRange_of_idle {s : State} (ha : s.active = none) : s.RunInRange := by
  intro p hp
  simp [ha] at hp

/-- With no program in progress and none given, only `pc` has to meet the bound. -/
theorem State.pcBounded_of_idle {s : State} {lenMax : Nat} (ha : s.active = none) (hcmd : s.commands = [])
    (hpc : s.pc ≤ lenMax) : s.PcBounded lenMax := by
  refine ⟨hpc, fun p hp => ?_, fun c hc => ?_⟩
  · simp [ha] at hp
  · simp [hcmd] at hc

/-! ### The obligations -/

/-- Settles O2: the eight legal words are canonical words of their instructions, and the other three have an opcode
outside 1 to 8. -/
theorem specWordsDecode : Obligations.SpecWordsDecode :=
  have legal := decodeOfEncodeIsTheInstruction
  have illegal := fun w => (illegalWordsAreRejected w).1
  ⟨legal .stop rfl, legal (.load 5) rfl, legal (.store 15) rfl, legal (.fetch 15) rfl,
    legal .add rfl, legal .and rfl, legal .or rfl, legal .not rfl,
    illegal 0x00 (by decide), illegal 0x90 (by decide), illegal 0xFF (by decide)⟩

/-- Settles O7: the reset memory list is empty, and the reset state is idle with `pc` 0. -/
theorem resetMeetsInvariants : Obligations.ResetMeetsInvariants :=
  ⟨⟨State.reset_mem_wf, State.runInRange_of_idle rfl⟩,
    fun lenMax => State.pcBounded_of_idle rfl rfl (Nat.zero_le lenMax)⟩

/-- Settles O41: an idle engine looks for a command and finds none. -/
theorem idleEngineExecutesNothing : Obligations.IdleEngineExecutesNothing :=
  fun _ ha hcmd => (step_of_idle ha).trans (acceptCommand_nil hcmd)

/-- Settles O51: the remainder of an integer modulo 16 is a natural number, and it is what four bits hold. -/
theorem operandIsTruncatedToFourBits : Obligations.OperandIsTruncatedToFourBits := by
  intro operand
  have hnonneg : 0 ≤ operand % 16 := Int.emod_nonneg operand (by decide)
  calc ((truncateOperand operand).toNat : Int)
      = ((operand % 16).toNat : Int) := congrArg Nat.cast (BitVec.toNat_ofInt operand)
    _ = operand % 16 := Int.toNat_of_nonneg hnonneg

end Sys2Proof.Machine
end
